-- ==== Sys2Proof/Word.lean ====
section
/-! DEFINITION. The widths of the spec: a byte (00_scope.md R11), the format C command word (30_encoding.md R55), the
format U micro-operation word (R57) and the descriptor integers (00_scope.md R9). A single bit is a `Bool`, `true` for 1
(R12); bit arrays are vectors or lists in index order, never numbers (R12). -/

namespace Sys2Proof

/-- A byte: 8 bits, unsigned (00_scope.md R11). -/
abbrev Byte := BitVec 8

/-- A host command word of format C, `cw[15:0]` (30_encoding.md R55). -/
abbrev CommandWord := BitVec 16

/-- A micro-operation word of format U, `u[0]` (30_encoding.md R57). -/
abbrev MicroWord := BitVec 1

/-- A descriptor integer of `LENW = 32` bits (00_scope.md R9). -/
abbrev DescWord := BitVec 32

end Sys2Proof
end

