-- ==== Sys2Proof/Config.lean ====
section
/-! DEFINITION. What an implementation fixes (00_scope.md section 4). The register size `n` is no constant here: it is
the size of the Key bound at `CONSTRUCT` (R6). `NMAX` appears in no rule and has no constant (R7). `INIT_SRC` is fixed to
`IV` (R10). -/

namespace Sys2Proof

/-- `IDXW`, the bits of one permutation entry: `max(1, ceil(log2 n))` (00_scope.md R8). -/
def Config.idxw (n : Nat) : Nat := max 1 (Nat.clog 2 n)

/-- The parameter `FEEDBACK` of 93_implementation_defined.md U10: which bit of a position drives the register. -/
inductive Feedback where
  /-- The ciphertext bit: `out` when encrypting, `in` when decrypting (42_bit_transition.md R94). -/
  | ciphertext
  /-- The rejected reading of 90_conflicts.md C2: `in` when encrypting, `out` when decrypting. -/
  | plaintext
  deriving DecidableEq, Repr

/-- This hardware feeds the ciphertext bit back (42_bit_transition.md R94, 90_conflicts.md C2). -/
def Config.feedback : Feedback := .ciphertext

end Sys2Proof
end

