-- ==== Sys2Proof/Syntax.lean ====
section
/-! DEFINITION. The command set NCE (00_scope.md R2): one constructor per row of the opcode table, and the operand
objects that travel beside a command word (30_encoding.md R56). -/

namespace Sys2Proof

/-- The processing mode (10_state.md R26). -/
inductive Mode where
  | encrypt
  | decrypt
  deriving DecidableEq, Repr

/-- The mode number: `ENCRYPT = 0`, `DECRYPT = 1` (30_encoding.md R62). -/
def Mode.toBit : Mode → Bool
  | .encrypt => false
  | .decrypt => true

/-- The mode a mode number names (30_encoding.md R62). -/
def Mode.ofBit : Bool → Mode
  | false => .encrypt
  | true => .decrypt

/-- The commands and micro-operations, with the fields of their immediates. -/
inductive Instr where
  /-- `CONSTRUCT`: the mode field and the presence flags `MP`, `KP`, `IP` (30_encoding.md R58, 41_construct_reset.md R77).
  The mode field is ignored when `mp` is false. -/
  | construct (mode : Mode) (mp kp ip : Bool)
  /-- `LDIV`: the presence flag `IP` (30_encoding.md R59, 41_construct_reset.md R78). -/
  | ldiv (ip : Bool)
  /-- `BYTE`: the input byte (30_encoding.md R60, 42_bit_transition.md R93). -/
  | byte (b : Byte)
  /-- `PROC`: its operands are on the `DESC` channel (30_encoding.md R61, 42_bit_transition.md R95). -/
  | proc
  /-- `BITSTEP.RED`, internal (30_encoding.md R57, 42_bit_transition.md R88). -/
  | bitstepRed
  /-- `BITSTEP.BLUE`, internal (30_encoding.md R57, 42_bit_transition.md R89). -/
  | bitstepBlue
  deriving DecidableEq, Repr

/-- The host can issue the command: it has a format C word (30_encoding.md R55, R57). -/
def Instr.fromHost : Instr → Bool
  | .construct _ _ _ _ => true
  | .ldiv _ => true
  | .byte _ => true
  | .proc => true
  | .bitstepRed => false
  | .bitstepBlue => false

/-- A Key as the `KEY` channel presents it: `size` and four tables (30_encoding.md R56). The wires can show an object that
is no Key. -/
structure KeyOperand where
  size : Nat
  rp : List Nat
  bp : List Nat
  rb : List Bool
  bb : List Bool
  deriving DecidableEq, Repr

/-- An IV as the `IV` channel presents it (30_encoding.md R56); its size `m` is the number of its bits. -/
structure IvOperand where
  bits : List Bool
  deriving DecidableEq, Repr

/-- `iv.size` (10_state.md R33). -/
def IvOperand.size (v : IvOperand) : Nat := v.bits.length

/-- The `DESC` channel: the contents of `BUF` and the integers `offset` and `length` (30_encoding.md R56, R61). -/
structure Desc where
  buf : List Byte
  offset : DescWord
  length : DescWord
  deriving DecidableEq, Repr

/-- `buflen`, the length of `BUF` (30_encoding.md R61). -/
def Desc.buflen (d : Desc) : Nat := d.buf.length

/-- The three operand channels as sampled when a command is accepted (30_encoding.md R56). A channel that is not valid for
the command is ignored by it. -/
structure Channels where
  key : KeyOperand
  iv : IvOperand
  desc : Desc
  deriving DecidableEq, Repr

/-- Channels on which the host presents no object. -/
def Channels.idle : Channels := ⟨⟨0, [], [], [], []⟩, ⟨[]⟩, ⟨[], 0, 0⟩⟩

end Sys2Proof
end

