-- ==== Sys2Proof/WellFormed.lean ====
section
/-! DEFINITION. Which operand objects are a Key, an IV and a descriptor (10_state.md R30, R33; 00_scope.md R9). An `Instr`
needs no check of its own: each of its fields admits every value of its type (30_encoding.md R58 to R61), and the reserved
bits of a word are the decoder's. -/

namespace Sys2Proof

/-- `l` lists every index `0..n-1` exactly once (10_state.md R30). -/
abbrev PermutationTable (n : Nat) (l : List Nat) : Prop :=
  l.length = n ∧ (∀ x ∈ l, x < n) ∧ ∀ x ∈ List.range n, l.count x = 1

/-- The object on the `KEY` channel is a Key: `size >= 1`, two permutations, two masks, all of that size (10_state.md R30). -/
abbrev KeyOperand.WellFormed (k : KeyOperand) : Prop :=
  0 < k.size ∧ PermutationTable k.size k.rp ∧ PermutationTable k.size k.bp ∧
    k.rb.length = k.size ∧ k.bb.length = k.size

/-- The object on the `IV` channel is an IV: its size is at least 1, its bits are arbitrary (10_state.md R33). -/
abbrev IvOperand.WellFormed (v : IvOperand) : Prop := 0 < v.size

/-- `buflen` is one that `LENW` bits can show (30_encoding.md R61). -/
abbrev Desc.WellFormed (d : Desc) : Prop := d.buflen < 2 ^ 32

end Sys2Proof
end

