-- ==== Sys2Proof/Decode.lean ====
section
/-! DEFINITION. The decoder of 30_encoding.md (R55 to R65), total on every word and rejecting by name, and after it the
encoder from the same tables. -/

namespace Sys2Proof

/-- Why a format C word is no command (30_encoding.md R64). -/
inductive DecodeError where
  /-- The opcode is none of `0x01 .. 0x04`. -/
  | undefinedOpcode (op : BitVec 8)
  /-- A defined opcode with a non-zero reserved immediate bit. -/
  | reservedImmediate (op imm : BitVec 8)
  deriving DecidableEq, Repr

/-- The instruction of a word, or why there is none. -/
inductive Decoded where
  | command (i : Instr)
  | illegal (e : DecodeError)
  deriving DecidableEq, Repr

/-- `cw[15:8]` (30_encoding.md R55). -/
def opField (w : CommandWord) : BitVec 8 := w.extractLsb' 8 8

/-- `cw[7:0]` (30_encoding.md R55). -/
def immField (w : CommandWord) : BitVec 8 := w.extractLsb' 0 8

/-- The name under which a word that matches no row is rejected (30_encoding.md R64). -/
def rejectWord (w : CommandWord) : DecodeError :=
  if 1 ≤ (opField w).toNat ∧ (opField w).toNat ≤ 4 then .reservedImmediate (opField w) (immField w)
  else .undefinedOpcode (opField w)

/-- Decoding a format C word: a word selects a row when `cw & mask = match` (30_encoding.md section 2, R58 to R63). -/
def decodeCommand (w : CommandWord) : Decoded :=
  if w &&& 0xFFF0#16 = 0x0100#16 then
    .command (.construct (Mode.ofBit (w.getLsbD 0)) (w.getLsbD 1) (w.getLsbD 2) (w.getLsbD 3))
  else if w &&& 0xFFF7#16 = 0x0200#16 then .command (.ldiv (w.getLsbD 3))
  else if w &&& 0xFF00#16 = 0x0300#16 then .command (.byte (immField w))
  else if w &&& 0xFFFF#16 = 0x0400#16 then .command .proc
  else .illegal (rejectWord w)

/-- Decoding a format U word: `c = 1` is red, `c = 0` is blue; there is no illegal value (30_encoding.md R57). -/
def decodeMicro (u : MicroWord) : Instr :=
  if u.getLsbD 0 then .bitstepRed else .bitstepBlue

/-- A word of either format. -/
inductive Encoding where
  | formatC (w : CommandWord)
  | formatU (u : MicroWord)
  deriving DecidableEq, Repr

/-- Decoding a word of either format. -/
def decode : Encoding → Decoded
  | .formatC w => decodeCommand w
  | .formatU u => .command (decodeMicro u)

/-- One bit at position `k` of an immediate. -/
def flagBit (f : Bool) (k : Nat) : CommandWord := if f then 1#16 <<< k else 0#16

/-- The word of an instruction (30_encoding.md R57 to R62). -/
def encode : Instr → Encoding
  | .construct mode mp kp ip =>
    .formatC (0x0100#16 ||| flagBit mode.toBit 0 ||| flagBit mp 1 ||| flagBit kp 2 ||| flagBit ip 3)
  | .ldiv ip => .formatC (0x0200#16 ||| flagBit ip 3)
  | .byte b => .formatC (0x0300#16 ||| b.zeroExtend 16)
  | .proc => .formatC 0x0400#16
  | .bitstepRed => .formatU 1#1
  | .bitstepBlue => .formatU 0#1

/-- A row of the opcode table (30_encoding.md section 2): mnemonic, `match` and `mask`. -/
structure OpcodeRow where
  mnemonic : String
  pattern : CommandWord
  mask : CommandWord
  deriving DecidableEq, Repr

/-- The format C rows of the opcode table. -/
def opcodeRows : List OpcodeRow :=
  [⟨"CONSTRUCT", 0x0100#16, 0xFFF0#16⟩, ⟨"LDIV", 0x0200#16, 0xFFF7#16⟩,
   ⟨"BYTE", 0x0300#16, 0xFF00#16⟩, ⟨"PROC", 0x0400#16, 0xFFFF#16⟩]

/-- A word selects a row when `cw & mask = match`. -/
def OpcodeRow.selects (r : OpcodeRow) (w : CommandWord) : Bool := w &&& r.mask == r.pattern

/-- The table's name of an instruction. -/
def Instr.mnemonic : Instr → String
  | .construct _ _ _ _ => "CONSTRUCT"
  | .ldiv _ => "LDIV"
  | .byte _ => "BYTE"
  | .proc => "PROC"
  | .bitstepRed => "BITSTEP.RED"
  | .bitstepBlue => "BITSTEP.BLUE"

/-- The word that `nbits` bits of an opcode-table row and their value stand for: a row of up to 8 bits whose value is one
bit is of format U, every other value is a format C word whose bits above `nbits` are 0. -/
def tableEncoding (nbits w : Nat) : Encoding :=
  if nbits ≤ 8 ∧ w < 2 then .formatU (BitVec.ofNat 1 w) else .formatC (BitVec.ofNat 16 w)

/-- The instruction the decoder reads from an instruction of the opcode table whose bits are `w`. -/
def decodeTableWord (nbits w : Nat) : Option Instr :=
  if w < 2 ^ 16 then
    match decode (tableEncoding nbits w) with
    | .command i => some i
    | .illegal _ => none
  else none

end Sys2Proof
end

