-- ==== Sys2Proof/Machine/State.lean ====
section
/-! DEFINITION. The state (10_state.md R20 to R38), the response of a command (30_encoding.md R56, 60_exceptions.md R106),
what is presented to the engine (70_reset_and_hazards.md R137), the reasons a step can stop, and the state after the
power-on reset (R37, R125). -/

namespace Sys2Proof.Machine

/-- Every index `0..n-1` appears exactly once in the table (10_state.md R30). -/
abbrev EachOnce {n : Nat} (t : Vector (Fin n) n) : Prop := ∀ x : Fin n, t.toList.count x = 1

/-- A bound Key of size `n >= 1`. The type holds no ill-formed Key (10_state.md R30, R31). -/
structure Key (n : Nat) where
  pos : 0 < n
  /-- `RP`, the red permutation. -/
  rp : Vector (Fin n) n
  /-- `BP`, the blue permutation. -/
  bp : Vector (Fin n) n
  /-- `RB`, the red complementation table. -/
  rb : Vector Bool n
  /-- `BB`, the blue complementation table. -/
  bb : Vector Bool n
  rpOnce : EachOnce rp
  bpOnce : EachOnce bp
  deriving DecidableEq, Repr

/-- A constructed engine: the bound Key, `MODE` and the state register (10_state.md R20). -/
structure Engine where
  /-- The size of the bound Key (00_scope.md R6). -/
  n : Nat
  /-- The Key binding (10_state.md R27). -/
  key : Key n
  /-- `MODE` (10_state.md R26). -/
  mode : Mode
  /-- `S`, cell `i` at index `i` (10_state.md R21, 00_scope.md R12). -/
  reg : Vector Bool n
  deriving DecidableEq, Repr

/-- The values of the lifecycle register `LIFE` (10_state.md R28). -/
inductive Life where
  | unconstructed
  | ready
  deriving DecidableEq, Repr

/-- The status of a response (60_exceptions.md R106). -/
inductive Status where
  | ok
  | invalidSize
  | nullArgument
  | sizeMismatch
  | boundsError
  | illegalCommand
  | notConstructed
  | alreadyConstructed
  deriving DecidableEq, Repr

/-- The result of a command that returns data (30_encoding.md R56). -/
inductive Result where
  /-- The byte `BYTE` returns. -/
  | byte (r : Byte)
  /-- The buffer `OUT` that `PROC` returns, `OUT[k]` at index `k`. -/
  | out (bytes : List Byte)
  deriving DecidableEq, Repr

/-- The response of a command: the pair `(status, result)` (30_encoding.md R56). -/
structure Response where
  status : Status
  result : Option Result
  deriving DecidableEq, Repr

/-- What can be presented to the engine next. -/
inductive Issue where
  /-- The power-on reset event (70_reset_and_hazards.md R125, R137). -/
  | powerOn
  /-- The host presents a command word with its operand channels (30_encoding.md R55, R56). -/
  | command (w : CommandWord) (ch : Channels)
  /-- The engine's own sequencer issues a micro-operation; the host cannot (30_encoding.md R57). -/
  | micro (u : MicroWord)
  deriving DecidableEq, Repr

/-- The reasons the machine would stop with a fault. There is none: a fault of the spec is a response, and the engine
accepts the next command (60_exceptions.md R113, R114). -/
inductive Fault where
  deriving DecidableEq, Repr

/-- The reasons a step is given no meaning. -/
inductive Refusal where
  /-- `exec` raises it for an instruction that has no meaning yet. Safe. -/
  | notModelled (mnemonic : String)
  /-- `CONSTRUCT` raises it where it would bind an object that is no Key (10_state.md R31, 93_implementation_defined.md U3).
  Safe. -/
  | illFormedKey
  /-- `BITSTEP.RED` and `BITSTEP.BLUE` raise it with no engine: no sequencer issues a bit-step there (30_encoding.md R57) and
  there is neither a Key nor a register to read (10_state.md R23). Safe. -/
  | bitstepWithoutEngine
  deriving DecidableEq, Repr

/-- The engine, and the interface it is driven through. -/
structure State where
  /-- `none` is `LIFE = UNCONSTRUCTED`, the absence of an engine: no Key, no `MODE`, no value in `S` (10_state.md R20, R23). -/
  engine : Option Engine
  /-- The operand channels as sampled with the last accepted command (30_encoding.md R56). -/
  channels : Channels
  /-- What is presented to the engine and not yet accepted, in issue order (20_memory.md R49). -/
  stream : List Issue
  /-- The responses the host has received, newest first. No command reads them (60_exceptions.md R113). -/
  responses : List Response
  deriving DecidableEq, Repr

/-- The state after the power-on reset (10_state.md R37, 70_reset_and_hazards.md R125), with nothing presented yet. -/
def State.reset : State where
  engine := none
  channels := Channels.idle
  stream := []
  responses := []

end Sys2Proof.Machine
end

