-- ==== Sys2Proof/Machine/Flags.lean ====
section
/-! DEFINITION. There are no flags, condition codes or predicate registers (10_state.md R25); what a command reports is the
4-bit status code of its response (60_exceptions.md R106). -/

namespace Sys2Proof.Machine

/-- The 4-bit code of a status (60_exceptions.md R106). -/
def statusCode : Status → BitVec 4
  | .ok => 0
  | .invalidSize => 1
  | .nullArgument => 2
  | .sizeMismatch => 3
  | .boundsError => 4
  | .illegalCommand => 5
  | .notConstructed => 6
  | .alreadyConstructed => 7

/-- The encoding of `LIFE` (10_state.md R28). -/
def lifeBit : Life → Bool
  | .unconstructed => false
  | .ready => true

end Sys2Proof.Machine
end

