-- ==== Sys2Proof/Machine/Ops.lean ====
section
/-! DEFINITION. The shared operations: the permutation multiplexer, the bit-step, the byte-step and the process operation
(42_bit_transition.md), and how a command ends: with a result, or by raising a fault (60_exceptions.md R113). -/

namespace Sys2Proof.Machine

variable {n : Nat}

/-- `permutation(c)`: `RP` for 1, `BP` for 0 (42_bit_transition.md R86). -/
def Key.permutation (k : Key n) (c : Bool) : Vector (Fin n) n := if c then k.rp else k.bp

/-- `mask(c)`: `RB` for 1, `BB` for 0 (42_bit_transition.md R87). -/
def Key.mask (k : Key n) (c : Bool) : Vector Bool n := if c then k.rb else k.bb

/-- The top cell `S[n-1]`, the keystream bit (42_bit_transition.md R91). -/
def topCell (k : Key n) (s : Vector Bool n) : Bool := s[n - 1]'(Nat.sub_lt k.pos Nat.one_pos)

/-- The bit-step under control bit `c`: every lane reads the register as it was before the step (42_bit_transition.md R88,
R89, R90). -/
def bitStep (k : Key n) (c : Bool) (s : Vector Bool n) : Vector Bool n :=
  Vector.ofFn fun i => if i.val = 0 then c else s[(k.permutation c)[i]] ^^ (k.mask c)[i]

/-- The control bit of an iteration (42_bit_transition.md R94; the other reading is 93_implementation_defined.md U10). -/
def controlBit (f : Feedback) (m : Mode) (inBit outBit : Bool) : Bool :=
  match f, m with
  | .ciphertext, .encrypt => outBit
  | .ciphertext, .decrypt => inBit
  | .plaintext, .encrypt => inBit
  | .plaintext, .decrypt => outBit

/-- `r <- (r >> 1) | (out ? 0x80 : 0)` (42_bit_transition.md R92). -/
def packBit (r : Byte) (outBit : Bool) : Byte := (r >>> 1) ||| (if outBit then 0x80#8 else 0#8)

/-- Iteration `j` of a byte-step on input byte `b`, from a register and result byte to the next (42_bit_transition.md R93). -/
def bitIteration (f : Feedback) (m : Mode) (k : Key n) (b : Byte) (x : Vector Bool n × Byte) (j : Nat) :
    Vector Bool n × Byte :=
  let inBit := b.getLsbD j
  let outBit := inBit ^^ topCell k x.1
  (bitStep k (controlBit f m inBit outBit) x.1, packBit x.2 outBit)

/-- The byte-step: iterations `j = 0, 1, ..., 7` in this order, the result byte starting at 0 (42_bit_transition.md R93). -/
def byteStep (f : Feedback) (m : Mode) (k : Key n) (s : Vector Bool n) (b : Byte) : Vector Bool n × Byte :=
  [0, 1, 2, 3, 4, 5, 6, 7].foldl (bitIteration f m k b) (s, 0#8)

/-- One byte-step per byte, in ascending order; the register carries across bytes (42_bit_transition.md R95). -/
def byteSteps (f : Feedback) (m : Mode) (k : Key n) : Vector Bool n → List Byte → Vector Bool n × List Byte
  | s, [] => (s, [])
  | s, b :: bs =>
    let x := byteStep f m k s b
    let y := byteSteps f m k x.1 bs
    (y.1, x.2 :: y.2)

/-- The engine after a bit-step. -/
def Engine.bitStep (e : Engine) (c : Bool) : Engine := { e with reg := Machine.bitStep e.key c e.reg }

/-- The engine after a byte-step, and the byte returned. -/
def Engine.byteStep (e : Engine) (b : Byte) : Engine × Byte :=
  let x := Machine.byteStep Config.feedback e.mode e.key e.reg b
  ({ e with reg := x.1 }, x.2)

/-- The engine after byte-steps over a list of bytes, and the bytes returned. -/
def Engine.byteSteps (e : Engine) (bs : List Byte) : Engine × List Byte :=
  let x := Machine.byteSteps Config.feedback e.mode e.key e.reg bs
  ({ e with reg := x.1 }, x.2)

/-- `LIFE` (10_state.md R20, R28). -/
def State.life (s : State) : Life := if s.engine.isSome then .ready else .unconstructed

/-- The command's one response reaches the host (70_reset_and_hazards.md R137). -/
def State.respond (s : State) (r : Response) : State := { s with responses := r :: s.responses }

/-- `raise <Fault>`: the command ends with that status, no result and no other change (60_exceptions.md R113). There is
nothing to return from (R114). -/
def State.raise (s : State) (f : Status) : State := s.respond ⟨f, none⟩

/-- `respond OK(v)` (00_scope.md R16). -/
def State.respondOk (s : State) (v : Option Result) : State := s.respond ⟨.ok, v⟩

/-- The engine part of the state is replaced. -/
def State.setEngine (s : State) (e : Engine) : State := { s with engine := some e }

/-- The power-on reset: the Key binding is dropped, `LIFE` becomes `UNCONSTRUCTED`, there is no response
(70_reset_and_hazards.md R125). -/
def State.powerOnReset (s : State) : State := { s with engine := none }

end Sys2Proof.Machine
end

