-- ==== Sys2Proof/Machine/Operands.lean ====
section
/-! DEFINITION. Every operand form: binding the Key on the `KEY` channel, seeding from the `IV` channel, and the `DESC`
integers with the bytes `PROC` reads (30_encoding.md R56, R61; 41_construct_reset.md R77, R78; 42_bit_transition.md R95). -/

namespace Sys2Proof.Machine

/-- A table of `n` indices, each in `0..n-1`; `none` where the list is no such table. -/
def indexTable (n : Nat) (l : List Nat) : Option (Vector (Fin n) n) :=
  if h : l.length = n ∧ ∀ x ∈ l, x < n then
    some (Vector.ofFn fun i => ⟨l[i.val]'(h.1 ▸ i.isLt), h.2 _ (List.getElem_mem _)⟩)
  else none

/-- A table of `n` bits; `none` where the list has another length. -/
def bitTable (n : Nat) (l : List Bool) : Option (Vector Bool n) :=
  if h : l.length = n then some (Vector.ofFn fun i => l[i.val]'(h ▸ i.isLt)) else none

/-- The Key a `KEY` channel object is; `none` where it is no Key (10_state.md R30, R31). -/
def bindKey (k : KeyOperand) : Option (Key k.size) :=
  match indexTable k.size k.rp, indexTable k.size k.bp, bitTable k.size k.rb, bitTable k.size k.bb with
  | some rp, some bp, some rb, some bb =>
    if h : 0 < k.size ∧ EachOnce rp ∧ EachOnce bp then some ⟨h.1, rp, bp, rb, bb, h.2.1, h.2.2⟩ else none
  | _, _, _, _ => none

/-- `S[i] <- iv.bits[i]` for all `i`: a fresh copy of the IV's bits; `none` where `iv.size != n` (41_construct_reset.md R77,
R78). -/
def seedRegister (n : Nat) (v : IvOperand) : Option (Vector Bool n) := bitTable n v.bits

/-- `offset`, two's complement (30_encoding.md R61). -/
def descOffset (d : Desc) : Int := d.offset.toInt

/-- `length`, two's complement (30_encoding.md R61). -/
def descLength (d : Desc) : Int := d.length.toInt

/-- The bounds rule over exact integers (42_bit_transition.md R95, 00_scope.md R15). -/
def descInBounds (d : Desc) : Bool :=
  decide (0 ≤ descOffset d ∧ 0 ≤ descLength d ∧ descOffset d + descLength d ≤ (d.buflen : Int))

/-- The bytes `BUF[offset + k]` for `k = 0 .. length-1`, ascending (20_memory.md R41). -/
def descBytes (d : Desc) : List Byte := (d.buf.drop (descOffset d).toNat).take (descLength d).toNat

end Sys2Proof.Machine
end

