-- ==== Sys2Proof/Machine/Bitstep.lean ====
section
/-! DEFINITION. The micro-operations `BITSTEP.RED` and `BITSTEP.BLUE` (42_bit_transition.md). They are internal and give no
response; `BYTE` and `PROC` run the same bit-step inside their one transition (00_scope.md R17). -/

namespace Sys2Proof.Machine

/-- `BITSTEP.RED` (42_bit_transition.md R88). -/
def execBitstepRed (s : State) : Host.Outcome State Fault Refusal :=
  match s.engine with
  | none => .refused .bitstepWithoutEngine
  | some e => .next (s.setEngine (e.bitStep true))

/-- `BITSTEP.BLUE` (42_bit_transition.md R89). -/
def execBitstepBlue (s : State) : Host.Outcome State Fault Refusal :=
  match s.engine with
  | none => .refused .bitstepWithoutEngine
  | some e => .next (s.setEngine (e.bitStep false))

end Sys2Proof.Machine
end

