-- ==== Sys2Proof/Machine/Construction.lean ====
section
/-! DEFINITION. The system commands `CONSTRUCT` and `LDIV` (41_construct_reset.md). The test for `IllegalCommand` stands in
the decoder (30_encoding.md R63); the other tests come in the order of 60_exceptions.md R115. -/

namespace Sys2Proof.Machine

/-- `CONSTRUCT mode, key, iv` (41_construct_reset.md R77). -/
def execConstruct (mode : Mode) (mp kp ip : Bool) (s : State) : Host.Outcome State Fault Refusal :=
  match s.engine with
  | some _ => .next (s.raise .alreadyConstructed)
  | none =>
    if !(kp && mp && ip) then .next (s.raise .nullArgument)
    else if s.channels.iv.size ≠ s.channels.key.size then .next (s.raise .sizeMismatch)
    else
      match bindKey s.channels.key, seedRegister s.channels.key.size s.channels.iv with
      | some key, some reg => .next ((s.setEngine ⟨s.channels.key.size, key, mode, reg⟩).respondOk none)
      | _, _ => .refused .illFormedKey

/-- `LDIV iv` (41_construct_reset.md R78). -/
def execLdiv (ip : Bool) (s : State) : Host.Outcome State Fault Refusal :=
  match s.engine with
  | none => .next (s.raise .notConstructed)
  | some e =>
    if !ip then .next (s.raise .nullArgument)
    else
      match seedRegister e.n s.channels.iv with
      | none => .next (s.raise .sizeMismatch)
      | some reg => .next ((s.setEngine { e with reg := reg }).respondOk none)

end Sys2Proof.Machine
end

