-- ==== Sys2Proof/Machine/Data.lean ====
section
/-! DEFINITION. The data commands `BYTE` and `PROC` (42_bit_transition.md). -/

namespace Sys2Proof.Machine

/-- `BYTE b` (42_bit_transition.md R93). -/
def execByte (b : Byte) (s : State) : Host.Outcome State Fault Refusal :=
  match s.engine with
  | none => .next (s.raise .notConstructed)
  | some e => .next ((s.setEngine (e.byteStep b).1).respondOk (some (.byte (e.byteStep b).2)))

/-- `PROC buf, offset, length` (42_bit_transition.md R95): every test comes before the first byte-step. -/
def execProc (s : State) : Host.Outcome State Fault Refusal :=
  match s.engine with
  | none => .next (s.raise .notConstructed)
  | some e =>
    match descInBounds s.channels.desc with
    | false => .next (s.raise .boundsError)
    | true =>
      let x := e.byteSteps (descBytes s.channels.desc)
      .next ((s.setEngine x.1).respondOk (some (.out x.2)))

end Sys2Proof.Machine
end

