-- ==== Sys2Proof/Machine/Dispatch.lean ====
section
/-! DEFINITION. One arm per row of the opcode table. -/

namespace Sys2Proof.Machine

/-- One command, or one micro-operation, as one transition (00_scope.md R17). -/
def exec (i : Instr) (s : State) : Host.Outcome State Fault Refusal :=
  match i with
  | .construct mode mp kp ip => Sys2Proof.Machine.execConstruct mode mp kp ip s
  | .ldiv ip => Sys2Proof.Machine.execLdiv ip s
  | .byte b => Sys2Proof.Machine.execByte b s
  | .proc => Sys2Proof.Machine.execProc s
  | .bitstepRed => Sys2Proof.Machine.execBitstepRed s
  | .bitstepBlue => Sys2Proof.Machine.execBitstepBlue s

end Sys2Proof.Machine
end

