-- ==== Sys2Proof/Machine/Accept.lean ====
section
/-! DEFINITION. Accepting what is presented (70_reset_and_hazards.md R137): the power-on reset event, a command word with its
channels, a micro-operation of the sequencer; and presenting one instruction as the next. -/

namespace Sys2Proof.Machine

/-- The channels are sampled once, when the command is accepted (30_encoding.md R56). -/
def State.sample (s : State) (ch : Channels) : State := { s with channels := ch }

/-- A word that is a command runs as that command; one that matches no row ends with `IllegalCommand`, whatever `LIFE` is
(30_encoding.md R64, 60_exceptions.md R111). -/
def acceptCommand (w : CommandWord) (s : State) : Host.Outcome State Fault Refusal :=
  match decodeCommand w with
  | .command i => exec i s
  | .illegal _ => .next (s.raise .illegalCommand)

/-- What one presented item does. -/
def accept (i : Issue) (s : State) : Host.Outcome State Fault Refusal :=
  match i with
  | .powerOn => .next s.powerOnReset
  | .command w ch => acceptCommand w (s.sample ch)
  | .micro u => exec (decodeMicro u) s

/-- The oldest presented item is accepted; with none presented the engine waits (70_reset_and_hazards.md R125, R127). -/
def acceptNext (s : State) : Host.Outcome State Fault Refusal :=
  match s.stream with
  | [] => .next s
  | i :: rest => accept i { s with stream := rest }

/-- An engine of size 1 (42_bit_transition.md R100), seated only under a micro-operation that is presented alone. -/
def microBench : Engine where
  n := 1
  key := ⟨by decide, #v[0], #v[0], #v[false], #v[false], by decide, by decide⟩
  mode := .encrypt
  reg := #v[false]

/-- A word presented as the very next one, ahead of the stream, with the channels as they stand. A micro-operation is
issued only inside a command of a constructed engine (30_encoding.md R57), so an engine is seated where there is none. -/
def placeWord (s : State) : Encoding → State
  | .formatC w => { s with stream := .command w s.channels :: s.stream }
  | .formatU u => { s with engine := some (s.engine.getD microBench), stream := .micro u :: s.stream }

end Sys2Proof.Machine
end

