-- ==== Sys2Proof/Machine/Step.lean ====
section
/-! DEFINITION. One step: the engine accepts what is presented next (20_memory.md R49). -/

namespace Sys2Proof.Machine

/-- One step of the machine. -/
def step (s : State) : Host.Outcome State Fault Refusal := acceptNext s

/-- The state with an instruction of the opcode table presented next. -/
def State.withFetchWord (s : State) (nbits w : Nat) : State := placeWord s (tableEncoding nbits w)

end Sys2Proof.Machine
end

