-- ==== Sys2Proof/Machine/Provision.lean ====
section
/-! DEFINITION. The contract of the external software that creates Keys and IVs (40_provisioning.md): no command of the
engine, and the only place where `InvalidSize` arises (60_exceptions.md R108). Which Key or IV is created is open
(R74): the contract is a relation. -/

namespace Sys2Proof.Machine

/-- What a factory answers: an object, or the status it fails with. -/
inductive Created (α : Type) where
  | made (a : α)
  | failed (f : Status)
  deriving DecidableEq, Repr

/-- What `Key.create(n)` may answer (40_provisioning.md R70): two shuffles of the identity sequence `0..n-1` (R72) and two
masks of any `n` bits (R73). -/
def KeyCreates (n : Int) : Created KeyOperand → Prop
  | .made k =>
    0 < n ∧ (k.size : Int) = n ∧ k.rp.Perm (List.range k.size) ∧ k.bp.Perm (List.range k.size) ∧
      k.rb.length = k.size ∧ k.bb.length = k.size
  | .failed f => n ≤ 0 ∧ f = .invalidSize

/-- What `IV.create(n)` may answer (40_provisioning.md R71). -/
def IvCreates (n : Int) : Created IvOperand → Prop
  | .made v => 0 < n ∧ (v.size : Int) = n
  | .failed f => n ≤ 0 ∧ f = .invalidSize

end Sys2Proof.Machine
end

