-- ==== Sys2Proof/Machine/Script.lean ====
section
/-! DEFINITION. Command scripts (30_encoding.md R66, R67): the textual form of a command stream, its pseudo-commands, and the
assembler that emits one command word per line with the named objects on the channels. -/

namespace Sys2Proof.Machine

/-- A name or mnemonic of a script. -/
abbrev Name := List Char

/-- What a name of a script is bound to (30_encoding.md R66). -/
inductive ScriptObject where
  | key (k : KeyOperand)
  | iv (v : IvOperand)
  | buf (b : List Byte)
  deriving DecidableEq, Repr

/-- The bindings of a script, the latest first. -/
abbrev Bindings := List (Name × ScriptObject)

/-- A command line of a script; `none` stands for `null` (30_encoding.md R66). -/
inductive ScriptCommand where
  | construct (mode : Option Mode) (key iv : Option Name)
  | ldiv (iv : Option Name)
  | byte (b : Byte)
  | proc (buf : Name) (offset length : Int)
  deriving DecidableEq, Repr

/-- A command line or a pseudo-command (30_encoding.md R67). -/
inductive ScriptLine where
  | command (c : ScriptCommand)
  | reset (iv : Option Name)
  | procAll (buf : Name)
  | bytes (bs : List Byte)
  | encryptor (key iv : Option Name)
  | decryptor (key iv : Option Name)
  deriving DecidableEq, Repr

/-- The object a name is bound to. -/
def lookupName (env : Bindings) (x : Name) : Option ScriptObject :=
  (env.find? fun p => p.1 == x).map Prod.snd

/-- The Key an operand names; nothing is presented for `null`. -/
def keyOfName (env : Bindings) : Option Name → Option KeyOperand
  | none => some Channels.idle.key
  | some x =>
    match lookupName env x with
    | some (.key k) => some k
    | _ => none

/-- The IV an operand names; nothing is presented for `null`. -/
def ivOfName (env : Bindings) : Option Name → Option IvOperand
  | none => some Channels.idle.iv
  | some x =>
    match lookupName env x with
    | some (.iv v) => some v
    | _ => none

/-- The buffer a name is bound to. -/
def bufOfName (env : Bindings) (x : Name) : Option (List Byte) :=
  match lookupName env x with
  | some (.buf b) => some b
  | _ => none

/-- The expansion of a line (30_encoding.md R67). -/
def expandLine (env : Bindings) : ScriptLine → Option (List ScriptCommand)
  | .command c => some [c]
  | .reset v => some [.ldiv v]
  | .procAll x => (bufOfName env x).map fun b => [.proc x 0 b.length]
  | .bytes bs => some (bs.map ScriptCommand.byte)
  | .encryptor k v => some [.construct (some .encrypt) k v]
  | .decryptor k v => some [.construct (some .decrypt) k v]

/-- The presented command of an instruction that has a format C word. -/
def presentCommand (i : Instr) (ch : Channels) : Option Issue :=
  match encode i with
  | .formatC w => some (.command w ch)
  | .formatU _ => none

/-- `x` as a descriptor integer, where `LENW` bits can hold it (30_encoding.md R61). -/
def descInteger (x : Int) : Option DescWord :=
  if -(2 ^ 31) ≤ x ∧ x < 2 ^ 31 then some (BitVec.ofInt 32 x) else none

/-- The word and the channels a command line assembles to; `null` becomes a 0 presence flag (30_encoding.md R66). -/
def assembleCommand (env : Bindings) : ScriptCommand → Option Issue
  | .construct mode key iv =>
    match keyOfName env key, ivOfName env iv with
    | some k, some v =>
      presentCommand (.construct (mode.getD .encrypt) mode.isSome key.isSome iv.isSome)
        { Channels.idle with key := k, iv := v }
    | _, _ => none
  | .ldiv iv =>
    match ivOfName env iv with
    | some v => presentCommand (.ldiv iv.isSome) { Channels.idle with iv := v }
    | none => none
  | .byte b => presentCommand (.byte b) Channels.idle
  | .proc x offset length =>
    match bufOfName env x, descInteger offset, descInteger length with
    | some b, some o, some l => presentCommand .proc { Channels.idle with desc := ⟨b, o, l⟩ }
    | _, _, _ => none

/-- Every element assembles, in order. -/
def assembleAll (env : Bindings) : List ScriptCommand → Option (List Issue)
  | [] => some []
  | c :: cs =>
    match assembleCommand env c, assembleAll env cs with
    | some i, some is => some (i :: is)
    | _, _ => none

/-- What a line assembles to. -/
def assembleLine (env : Bindings) (l : ScriptLine) : Option (List Issue) :=
  match expandLine env l with
  | some cs => assembleAll env cs
  | none => none

/-- A token of the text of a script. -/
inductive Token where
  | word (cs : List Char)
  | mark (c : Char)
  | newline
  deriving DecidableEq, Repr

/-- A character of a name, a mnemonic or a number. -/
def isWordChar (c : Char) : Bool := c.isAlphanum || c == '_' || c == '-' || c == '.'

/-- The word read so far, put before the tokens that follow it. -/
def endWord (acc : List Char) (ts : List Token) : List Token :=
  match acc with
  | [] => ts
  | _ => .word acc.reverse :: ts

/-- The tokens of a text; `;` starts a comment that ends with its line. -/
def tokenize (inComment : Bool) (acc : List Char) : List Char → List Token
  | [] => endWord acc []
  | c :: cs =>
    if inComment then
      if c = '\n' then .newline :: tokenize false [] cs else tokenize true [] cs
    else if isWordChar c then tokenize false (c :: acc) cs
    else if c = '\n' then endWord acc (.newline :: tokenize false [] cs)
    else if c = ';' then endWord acc (tokenize true [] cs)
    else if c.isWhitespace then endWord acc (tokenize false [] cs)
    else endWord acc (.mark c :: tokenize false [] cs)

/-- The lines of a script: a line break inside brackets or braces ends no line. -/
def splitLines (depth : Nat) (acc : List Token) : List Token → List (List Token)
  | [] => [acc.reverse]
  | .newline :: ts => if depth = 0 then acc.reverse :: splitLines 0 [] ts else splitLines depth acc ts
  | .mark c :: ts =>
    splitLines
      (if c = '[' ∨ c = '\x7b' then depth + 1 else if c = ']' ∨ c = '\x7d' then depth - 1 else depth)
      (.mark c :: acc) ts
  | .word w :: ts => splitLines depth (.word w :: acc) ts

/-- The value of a digit. -/
def digitValue (c : Char) : Option Nat :=
  if '0' ≤ c ∧ c ≤ '9' then some (c.toNat - '0'.toNat)
  else if 'a' ≤ c ∧ c ≤ 'f' then some (c.toNat - 'a'.toNat + 10)
  else if 'A' ≤ c ∧ c ≤ 'F' then some (c.toNat - 'A'.toNat + 10)
  else none

/-- The value of digits in a base, on top of the value read so far. -/
def digitsValue (base v : Nat) : List Char → Option Nat
  | [] => some v
  | c :: cs =>
    match digitValue c with
    | some d => if d < base then digitsValue base (v * base + d) cs else none
    | none => none

/-- A number: hexadecimal after `0x`, else decimal (00_scope.md R13, 30_encoding.md R66). -/
def readNat : List Char → Option Nat
  | [] => none
  | '0' :: 'x' :: c :: cs => digitsValue 16 0 (c :: cs)
  | c :: cs => digitsValue 10 0 (c :: cs)

/-- A decimal integer, which may be negative (30_encoding.md R66). -/
def readInt : List Char → Option Int
  | [] => none
  | '-' :: c :: cs => (digitsValue 10 0 (c :: cs)).map fun v => -(v : Int)
  | c :: cs => (digitsValue 10 0 (c :: cs)).map fun v => (v : Int)

/-- A byte operand, `0x00 .. 0xFF` or `0 .. 255` (30_encoding.md R66). -/
def readByte (cs : List Char) : Option Byte :=
  match readNat cs with
  | some v => if v < 256 then some (BitVec.ofNat 8 v) else none
  | none => none

/-- A bit, `0` or `1`. -/
def readBit (cs : List Char) : Option Bool :=
  match readNat cs with
  | some 0 => some false
  | some 1 => some true
  | _ => none

/-- A name, or `null` for an absent argument (30_encoding.md R66). -/
def readName (cs : List Char) : Option Name := if cs = "null".toList then none else some cs

/-- A mode operand: `ENCRYPT`, `DECRYPT` or `null` (30_encoding.md R66). -/
def readMode (cs : List Char) : Option (Option Mode) :=
  if cs = "ENCRYPT".toList then some (some .encrypt)
  else if cs = "DECRYPT".toList then some (some .decrypt)
  else if cs = "null".toList then some none
  else none

/-- The words of an operand list separated by commas. -/
def readOperands : List Token → Option (List (List Char))
  | [.word w] => some [w]
  | .word w :: .mark ',' :: ts => (readOperands ts).map fun ws => w :: ws
  | _ => none

/-- The entries of a bracketed list up to its closing bracket, and what follows it. -/
def readEntries {α : Type} (entry : List Char → Option α) : List Token → Option (List α × List Token)
  | .word w :: .mark ']' :: ts => (entry w).map fun v => ([v], ts)
  | .word w :: .mark ',' :: ts =>
    match entry w, readEntries entry ts with
    | some v, some r => some (v :: r.1, r.2)
    | _, _ => none
  | _ => none

/-- A bracketed list in index order, element 0 first (00_scope.md R12). -/
def readList {α : Type} (entry : List Char → Option α) : List Token → Option (List α × List Token)
  | .mark '[' :: .mark ']' :: ts => some ([], ts)
  | .mark '[' :: ts => readEntries entry ts
  | _ => none

/-- A field of a key definition: its name, `=`, a list. -/
def readField {α : Type} (name : List Char) (entry : List Char → Option α) :
    List Token → Option (List α × List Token)
  | .word w :: .mark '=' :: ts => if w = name then readList entry ts else none
  | _ => none

/-- A comma is expected next. -/
def readComma : List Token → Option (List Token)
  | .mark ',' :: ts => some ts
  | _ => none

/-- The body of a key definition, `n`, `RP`, `BP`, `RB`, `BB` in this order between braces (30_encoding.md R66). -/
def readKeyBody : List Token → Option KeyOperand
  | .mark '\x7b' :: .word ['n'] :: .mark '=' :: .word w :: .mark ',' :: ts =>
    match readNat w, readField "RP".toList readNat ts with
    | some n, some (rp, ts) =>
      match (readComma ts).bind (readField "BP".toList readNat) with
      | some (bp, ts) =>
        match (readComma ts).bind (readField "RB".toList readBit) with
        | some (rb, ts) =>
          match (readComma ts).bind (readField "BB".toList readBit) with
          | some (bb, [.mark '\x7d']) => some ⟨n, rp, bp, rb, bb⟩
          | _ => none
        | none => none
      | none => none
    | _, _ => none
  | _ => none

/-- What a line of text says. -/
inductive ParsedLine where
  | blank
  | define (x : Name) (o : ScriptObject)
  | run (l : ScriptLine)
  deriving DecidableEq, Repr

/-- A definition of a name (30_encoding.md R66). -/
def readDefinition (kind : List Char) (x : Name) (ts : List Token) : Option ParsedLine :=
  if kind = "key".toList then (readKeyBody ts).map fun k => .define x (.key k)
  else if kind = "iv".toList then
    match readList readBit ts with
    | some (bits, []) => some (.define x (.iv ⟨bits⟩))
    | _ => none
  else if kind = "buf".toList then
    match readList readByte ts with
    | some (bs, []) => some (.define x (.buf bs))
    | _ => none
  else none

/-- Every operand is a byte. -/
def readBytes : List (List Char) → Option (List Byte)
  | [] => some []
  | w :: ws =>
    match readByte w, readBytes ws with
    | some b, some bs => some (b :: bs)
    | _, _ => none

/-- A command or pseudo-command: mnemonic first, operands separated by commas (30_encoding.md R66, R67). -/
def readCommand (m : List Char) (ops : List (List Char)) : Option ScriptLine :=
  match ops with
  | [a] =>
    if m = "LDIV".toList then some (.command (.ldiv (readName a)))
    else if m = "RESET".toList then some (.reset (readName a))
    else if m = "BYTE".toList then (readByte a).map fun b => .command (.byte b)
    else if m = "PROCALL".toList then some (.procAll a)
    else if m = "BYTES".toList then (readBytes [a]).map .bytes
    else none
  | [a, b] =>
    if m = "ENCRYPTOR".toList then some (.encryptor (readName a) (readName b))
    else if m = "DECRYPTOR".toList then some (.decryptor (readName a) (readName b))
    else if m = "BYTES".toList then (readBytes [a, b]).map .bytes
    else none
  | [a, b, c] =>
    if m = "CONSTRUCT".toList then
      (readMode a).map fun mode => .command (.construct mode (readName b) (readName c))
    else if m = "PROC".toList then
      match readInt b, readInt c with
      | some o, some l => some (.command (.proc a o l))
      | _, _ => none
    else if m = "BYTES".toList then (readBytes [a, b, c]).map .bytes
    else none
  | _ => if m = "BYTES".toList then (readBytes ops).map .bytes else none

/-- One line of a script. -/
def readLine : List Token → Option ParsedLine
  | [] => some .blank
  | .word kind :: .word x :: .mark '=' :: ts => readDefinition kind x ts
  | .word m :: ts =>
    match readOperands ts with
    | some ops => (readCommand m ops).map .run
    | none => none
  | _ => none

/-- The lines of a script under the bindings made before them: a command sees the names defined above it. -/
def assembleLines (env : Bindings) : List (List Token) → Option (List Issue)
  | [] => some []
  | l :: ls =>
    match readLine l with
    | some .blank => assembleLines env ls
    | some (.define x o) => assembleLines ((x, o) :: env) ls
    | some (.run c) =>
      match assembleLine env c, assembleLines env ls with
      | some is, some js => some (is ++ js)
      | _, _ => none
    | none => none

/-- The command stream a script text assembles to; `none` where the text is no script (30_encoding.md R66). -/
def assembleText (text : List Char) : Option (List Issue) :=
  assembleLines [] (splitLines 0 [] (tokenize false [] text))

end Sys2Proof.Machine
end

