-- ==== Sys2Proof/Safety.lean ====
section
/-! DEFINITION. What counts as a safe run, in the terms the statements use: the launch premises of 70_reset_and_hazards.md
R128, the form of a response (30_encoding.md R56, 60_exceptions.md R106), a run of byte commands, and a script line whose
names are bound (30_encoding.md R66). -/

namespace Sys2Proof.Machine

/-- The host or the reset circuit presents the item; the sequencer's micro-operations are not the host's to issue
(30_encoding.md R57). -/
def Issue.fromHost : Issue → Bool
  | .powerOn => true
  | .command _ _ => true
  | .micro _ => false

/-- Launch premise P1 for one item: a word that presents a Key presents a well-formed one (70_reset_and_hazards.md R128). -/
def Issue.KeyWellFormed : Issue → Prop
  | .powerOn => True
  | .command w ch => ∀ mode mp ip, decodeCommand w = .command (.construct mode mp true ip) → ch.key.WellFormed
  | .micro _ => True

/-- Launch premises P1 and P3 for what is presented: host items only, well-formed Keys (70_reset_and_hazards.md R128). -/
def State.Launch (s : State) : Prop := ∀ i ∈ s.stream, i.fromHost = true ∧ i.KeyWellFormed

/-- The form of a response: a result only with `OK`, and no `InvalidSize`, which the engine never raises (30_encoding.md R56,
60_exceptions.md R106, R108). -/
def Response.WellFormed (r : Response) : Prop :=
  r.status ≠ .invalidSize ∧ (r.status ≠ .ok → r.result = none)

/-- Every response the host has received has that form. -/
def State.ResponsesWellFormed (s : State) : Prop := ∀ r ∈ s.responses, r.WellFormed

/-- The state after a presented command was accepted with the channels `ch`, leaving `rest` presented and the engine `e`,
and answered with `r`: one response per command (70_reset_and_hazards.md R137). -/
def State.answered (s : State) (ch : Channels) (rest : List Issue) (e : Option Engine) (r : Response) : State :=
  ⟨e, ch, rest, r :: s.responses⟩

/-- The commands `BYTE b` for the bytes of a list, issued in order (42_bit_transition.md R97). -/
def execBytes : List Byte → State → Host.Outcome State Fault Refusal
  | [], s => .next s
  | b :: bs, s =>
    match exec (.byte b) s with
    | .next t => execBytes bs t
    | .fault r => .fault r
    | .refused r => .refused r

/-- The `PROC` descriptor of a whole buffer (30_encoding.md R67, `PROCALL`). -/
def wholeBuffer (bs : List Byte) : Desc := ⟨bs, 0, BitVec.ofNat 32 bs.length⟩

/-- Each name of a command line is bound to an object of the kind its operand asks for, and `PROC`'s integers are ones the
descriptor can show, `-2^31 .. 2^31-1` (30_encoding.md R61, R66; 00_scope.md R9). -/
def ScriptCommand.OperandsBound (env : Bindings) : ScriptCommand → Prop
  | .construct _ key iv =>
    (∀ x, key = some x → ∃ k, lookupName env x = some (.key k)) ∧
    ∀ x, iv = some x → ∃ v, lookupName env x = some (.iv v)
  | .ldiv iv => ∀ x, iv = some x → ∃ v, lookupName env x = some (.iv v)
  | .byte _ => True
  | .proc x offset length =>
    (∃ b, lookupName env x = some (.buf b)) ∧
    (-(2 ^ 31) ≤ offset ∧ offset < 2 ^ 31) ∧ -(2 ^ 31) ≤ length ∧ length < 2 ^ 31

/-- The ciphertext byte of a data command: what it returns when encrypting, what it takes when decrypting
(42_bit_transition.md R94). -/
def ciphertextByte (m : Mode) (taken returned : Byte) : Byte :=
  match m with
  | .encrypt => returned
  | .decrypt => taken

end Sys2Proof.Machine
end

