-- ==== Sys2Proof/Certificates/Slice0/Obligations.lean ====
section
/-! DEFINITION. The statements about the model, each from the rule its docstring cites. -/

open Sys2Proof Sys2Proof.Machine

/-! ### Steps, reset and lifecycle -/

/-- When a word is presented that decodes to `i`, the step is `exec i` with the presented channels sampled and the item taken
from the stream (30_encoding.md R56, R63). -/
def Obligations.StepRunsTheDecodedCommand : Prop :=
  ∀ (s : State) (w : CommandWord) (ch : Channels) (rest : List Issue) (i : Instr),
    s.stream = .command w ch :: rest → decodeCommand w = .command i →
      step s = exec i { s with channels := ch, stream := rest }

/-- A micro-operation presented as an item of the stream is run by the step as `exec` of it, with the channels untouched. That
it has a step of its own is the model's choice (log entry 6): the sequencer issues one only inside `BYTE` and `PROC`, which
are atomic (00_scope.md R17). Which of the two a word selects is 30_encoding.md R57. -/
def Obligations.StepRunsTheMicroOperation : Prop :=
  ∀ (s : State) (u : MicroWord) (rest : List Issue), s.stream = .micro u :: rest →
    step s = exec (if u = 1#1 then .bitstepRed else .bitstepBlue) { s with stream := rest }

/-- The state after reset has no engine: no Key, no `MODE`, no value in `S` (10_state.md R37); the power-on reset brings any
state there, gives no response and cannot fault; with nothing presented the engine waits (70_reset_and_hazards.md R125; that
waiting is a step that changes nothing is the model's, log entry 5). -/
def Obligations.PowerOnResetLeavesNoEngine : Prop :=
  State.reset.engine = none ∧ State.reset.life = .unconstructed ∧
  (∀ (s : State) (rest : List Issue), s.stream = .powerOn :: rest →
    step s = .next { s with engine := none, stream := rest }) ∧
  ∀ s : State, s.stream = [] → step s = .next s

/-- `LIFE` leaves `READY` by the power-on reset and by nothing else, and enters it by a successful `CONSTRUCT` and by nothing
else (10_state.md R28, 41_construct_reset.md R83). -/
def Obligations.LifecycleChangesOnlyByResetAndConstruct : Prop :=
  ∀ s t : State, step s = .next t →
    (s.life = .ready → t.life = .unconstructed → ∃ rest, s.stream = .powerOn :: rest) ∧
    (s.life = .unconstructed → t.life = .ready →
      ∃ w ch rest mode, s.stream = .command w ch :: rest ∧
        decodeCommand w = .command (.construct mode true true true) ∧
        t.responses = ⟨.ok, none⟩ :: s.responses)

/-- Within an engine lifetime every step keeps `n`, the Key binding and `MODE`; only `S` evolves (10_state.md R20, R26, R27). -/
def Obligations.BoundKeyAndModeNeverChange : Prop :=
  ∀ (s t : State) (e : Engine), step s = .next t → s.engine = some e → (∀ rest, s.stream ≠ .powerOn :: rest) →
    ∃ reg : Vector Bool e.n, t.engine = some { e with reg := reg }

/-! ### Encoding -/

/-- Decoding and encoding agree both ways on every format C word and every format U word (30_encoding.md R57 to R63). -/
def Obligations.DecodeAndEncodeAgree : Prop :=
  (∀ i : Instr, decode (encode i) = .command i) ∧
  (∀ (w : CommandWord) (i : Instr), decodeCommand w = .command i → encode i = .formatC w ∧ i.fromHost = true) ∧
  ∀ u : MicroWord, encode (decodeMicro u) = .formatU u ∧ (decodeMicro u).fromHost = false

/-- The partition of the 65,536 words by ranges (30_encoding.md R63): each range decodes to its command with the fields of
R58 to R61, and every other word is illegal. -/
def Obligations.DecodingPartitionsTheWords : Prop :=
  ∀ w : CommandWord,
    if 0x0100 ≤ w.toNat ∧ w.toNat ≤ 0x010F then
      decodeCommand w = .command (.construct (if w.toNat.testBit 0 then .decrypt else .encrypt)
        (w.toNat.testBit 1) (w.toNat.testBit 2) (w.toNat.testBit 3))
    else if w.toNat = 0x0200 ∨ w.toNat = 0x0208 then
      decodeCommand w = .command (.ldiv (w.toNat.testBit 3))
    else if 0x0300 ≤ w.toNat ∧ w.toNat ≤ 0x03FF then
      decodeCommand w = .command (.byte (BitVec.ofNat 8 (w.toNat - 0x0300)))
    else if w.toNat = 0x0400 then decodeCommand w = .command .proc
    else ∃ err, decodeCommand w = .illegal err

/-- No word selects two rows of the opcode map, and a word decodes exactly if it selects one, to an instruction of that row
(30_encoding.md R63). -/
def Obligations.EveryCommandWordSelectsOneRow : Prop :=
  ∀ w : CommandWord,
    (opcodeRows.filter fun r => r.selects w).length ≤ 1 ∧
    ∀ r ∈ opcodeRows, r.selects w = true ↔ ∃ i, decodeCommand w = .command i ∧ i.mnemonic = r.mnemonic

/-- Words written out from the encodings of 30_encoding.md R57 to R61 decode to what they stand for. -/
def Obligations.SampleWordsDecode : Prop :=
  decodeCommand 0b0000000100001111#16 = .command (.construct .decrypt true true true) ∧
  decodeCommand 0b0000000100001010#16 = .command (.construct .encrypt true false true) ∧
  decodeCommand 0b0000001000001000#16 = .command (.ldiv true) ∧
  decodeCommand 0b0000001100110101#16 = .command (.byte 0x35#8) ∧
  decodeCommand 0b0000010000000000#16 = .command .proc ∧
  decodeMicro 0b1#1 = .bitstepRed ∧ decodeMicro 0b0#1 = .bitstepBlue ∧
  decodeCommand 0b0000001000011000#16 = .illegal (.reservedImmediate 0x02#8 0x18#8) ∧
  decodeCommand 0b0000000000110101#16 = .illegal (.undefinedOpcode 0x00#8)

/-- A word that matches no row ends with status `IllegalCommand`, whatever `LIFE` is, and changes nothing of the engine
(30_encoding.md R64, 60_exceptions.md R111). -/
def Obligations.IllegalWordAnswersIllegalCommand : Prop :=
  ∀ (s : State) (w : CommandWord) (ch : Channels) (rest : List Issue),
    s.stream = .command w ch :: rest → (∀ r ∈ opcodeRows, r.selects w = false) →
      step s = .next (s.answered ch rest s.engine ⟨.illegalCommand, none⟩)

/-! ### Construction and re-seeding -/

/-- The whole of 41_construct_reset.md R77: any word with `op = 0x01`, with its tests in order. What becomes of an object that
is no Key is `ConstructRefusesAnObjectThatIsNoKey`. -/
def Obligations.ConstructWordFollowsItsRule : Prop :=
  ∀ (s : State) (w : CommandWord) (ch : Channels) (rest : List Issue),
    s.stream = .command w ch :: rest → opField w = 0x01#8 →
      if (immField w).extractLsb' 4 4 ≠ 0#4 then
        step s = .next (s.answered ch rest s.engine ⟨.illegalCommand, none⟩)
      else if s.life = .ready then
        step s = .next (s.answered ch rest s.engine ⟨.alreadyConstructed, none⟩)
      else if w.getLsbD 2 = false ∨ w.getLsbD 1 = false ∨ w.getLsbD 3 = false then
        step s = .next (s.answered ch rest s.engine ⟨.nullArgument, none⟩)
      else if ch.iv.size ≠ ch.key.size then
        step s = .next (s.answered ch rest s.engine ⟨.sizeMismatch, none⟩)
      else
        ch.key.WellFormed → ∃ (key : Key ch.key.size) (reg : Vector Bool ch.key.size),
          key.rp.toList.map Fin.val = ch.key.rp ∧ key.bp.toList.map Fin.val = ch.key.bp ∧
          key.rb.toList = ch.key.rb ∧ key.bb.toList = ch.key.bb ∧ reg.toList = ch.iv.bits ∧
          step s = .next (s.answered ch rest
            (some ⟨ch.key.size, key, if w.getLsbD 0 then .decrypt else .encrypt, reg⟩) ⟨.ok, none⟩)

/-- `CONSTRUCT` completes: with no engine yet, all three arguments present, a well-formed Key and an IV of its size, it binds
exactly that Key, sets `MODE`, seeds `S` from the IV and answers `OK`, changing nothing else (41_construct_reset.md R77). -/
def Obligations.ConstructBindsAndSeeds : Prop :=
  ∀ (s : State) (mode : Mode), s.engine = none → s.channels.key.WellFormed →
    s.channels.iv.size = s.channels.key.size →
      ∃ e : Engine, exec (.construct mode true true true) s =
          .next { s with engine := some e, responses := ⟨.ok, none⟩ :: s.responses } ∧
        e.n = s.channels.key.size ∧ e.mode = mode ∧ e.reg.toList = s.channels.iv.bits ∧
        e.key.rp.toList.map Fin.val = s.channels.key.rp ∧ e.key.bp.toList.map Fin.val = s.channels.key.bp ∧
        e.key.rb.toList = s.channels.key.rb ∧ e.key.bb.toList = s.channels.key.bb

/-- Where `CONSTRUCT` would bind an object that is no Key, the model gives it no meaning (10_state.md R31,
93_implementation_defined.md U3). -/
def Obligations.ConstructRefusesAnObjectThatIsNoKey : Prop :=
  ∀ (s : State) (mode : Mode), s.engine = none → s.channels.iv.size = s.channels.key.size →
    ¬ s.channels.key.WellFormed → exec (.construct mode true true true) s = .refused .illFormedKey

/-- The whole of 41_construct_reset.md R78: any word with `op = 0x02`, with its tests in order. -/
def Obligations.LdivWordFollowsItsRule : Prop :=
  ∀ (s : State) (w : CommandWord) (ch : Channels) (rest : List Issue),
    s.stream = .command w ch :: rest → opField w = 0x02#8 →
      if (immField w).extractLsb' 4 4 ≠ 0#4 ∨ (immField w).extractLsb' 0 3 ≠ 0#3 then
        step s = .next (s.answered ch rest s.engine ⟨.illegalCommand, none⟩)
      else
        match s.engine with
        | none => step s = .next (s.answered ch rest none ⟨.notConstructed, none⟩)
        | some e =>
          if w.getLsbD 3 = false then
            step s = .next (s.answered ch rest (some e) ⟨.nullArgument, none⟩)
          else if ch.iv.size ≠ e.n then
            step s = .next (s.answered ch rest (some e) ⟨.sizeMismatch, none⟩)
          else ∃ reg : Vector Bool e.n, reg.toList = ch.iv.bits ∧
            step s = .next (s.answered ch rest (some { e with reg := reg }) ⟨.ok, none⟩)

/-- `LDIV` completes: on a `READY` engine, with an IV of the Key's size present, `S` becomes the IV's bits and nothing else of
the engine changes (41_construct_reset.md R78). -/
def Obligations.LdivSeedsTheRegister : Prop :=
  ∀ (s : State) (e : Engine), s.engine = some e → s.channels.iv.size = e.n →
    ∃ reg : Vector Bool e.n, reg.toList = s.channels.iv.bits ∧
      exec (.ldiv true) s =
        .next { s with engine := some { e with reg := reg }, responses := ⟨.ok, none⟩ :: s.responses }

/-- A successful `CONSTRUCT` with `iv` leaves the engine that a successful `CONSTRUCT` with the same mode and Key and any IV
of that size leaves after a successful `LDIV iv` (41_construct_reset.md R81, which the spec derives from R77 and R78). -/
def Obligations.ConstructSeedsAsLdivDoes : Prop :=
  ∀ (s t u : State) (mode : Mode) (iv₀ : IvOperand), iv₀.size = s.channels.key.size →
    exec (.construct mode true true true) s = .next t → t.responses = ⟨.ok, none⟩ :: s.responses →
    exec (.construct mode true true true) { s with channels := { s.channels with iv := iv₀ } } = .next u →
      ∃ v, exec (.ldiv true) { u with channels := s.channels } = .next v ∧
        v.responses = ⟨.ok, none⟩ :: u.responses ∧ v.engine = t.engine

/-- A seeding loses the old register entirely: from two engines that differ in `S` alone, `LDIV` with one IV of the Key's size
leaves the same engine and the same response (41_construct_reset.md R78, R80). -/
def Obligations.LdivForgetsTheOldRegister : Prop :=
  ∀ (s : State) (e : Engine) (old : Vector Bool e.n), s.engine = some e → s.channels.iv.size = e.n →
    ∃ t, exec (.ldiv true) s = .next t ∧
      exec (.ldiv true) { s with engine := some { e with reg := old } } = .next t

/-! ### The bit-step -/

/-- `BITSTEP.RED` on an engine: every lane `i >= 1` of the new register is the old cell `RP[i]` XOR `RB[i]`, lane 0 is 1, and
nothing else changes; it gives no response (42_bit_transition.md R88). -/
def Obligations.BitstepRedGathersThroughTheRedTables : Prop :=
  ∀ (s : State) (e : Engine), s.engine = some e →
    ∃ T : Vector Bool e.n, exec .bitstepRed s = .next { s with engine := some { e with reg := T } } ∧
      T[0]'e.key.pos = true ∧ ∀ i : Fin e.n, 1 ≤ i.val → T[i] = (e.reg[e.key.rp[i]] ^^ e.key.rb[i])

/-- `BITSTEP.BLUE`, the same with `BP`, `BB` and lane 0 set to 0 (42_bit_transition.md R89). -/
def Obligations.BitstepBlueGathersThroughTheBlueTables : Prop :=
  ∀ (s : State) (e : Engine), s.engine = some e →
    ∃ T : Vector Bool e.n, exec .bitstepBlue s = .next { s with engine := some { e with reg := T } } ∧
      T[0]'e.key.pos = false ∧ ∀ i : Fin e.n, 1 ≤ i.val → T[i] = (e.reg[e.key.bp[i]] ^^ e.key.bb[i])

/-- No rule of the engine reads `RB[0]` or `BB[0]` (10_state.md R32, its part for the masks): with Keys that agree on the rows
`1..n-1`, every micro-operation, `BYTE` and `PROC` leaves the same register and answers the same. The permutations of two such
Keys are equal, since a bijection's row 0 follows from its other rows, so they differ in row 0 of the masks alone; which rows
of the permutations a bit-step reads is said by `BitstepRedGathersThroughTheRedTables` and
`BitstepBlueGathersThroughTheBlueTables`. -/
def Obligations.RowZeroOfTheMasksIsNeverRead : Prop :=
  ∀ (s : State) (e : Engine) (key : Key e.n) (i : Instr), s.engine = some e →
    (∀ j : Fin e.n, 1 ≤ j.val → key.rp[j] = e.key.rp[j] ∧ key.bp[j] = e.key.bp[j] ∧
      key.rb[j] = e.key.rb[j] ∧ key.bb[j] = e.key.bb[j]) →
    ∃ (reg : Vector Bool e.n) (rs : List Response),
      exec i s = .next { s with engine := some { e with reg := reg }, responses := rs } ∧
      exec i { s with engine := some { e with key := key } } =
        .next { s with engine := some { e with key := key, reg := reg }, responses := rs }

/-- The cell whose index is row 0 of the selected permutation is read by no lane: a bit-step drops its old value
(10_state.md R32, 42_bit_transition.md R88 corner case d). -/
def Obligations.CellNamedByRowZeroIsDropped : Prop :=
  ∀ (s : State) (e : Engine) (other : Vector Bool e.n), s.engine = some e →
    let zero : Fin e.n := ⟨0, e.key.pos⟩
    ((∀ j : Fin e.n, j ≠ e.key.rp[zero] → other[j] = e.reg[j]) →
      ∃ t, exec .bitstepRed s = .next t ∧
        exec .bitstepRed { s with engine := some { e with reg := other } } = .next t) ∧
    ((∀ j : Fin e.n, j ≠ e.key.bp[zero] → other[j] = e.reg[j]) →
      ∃ t, exec .bitstepBlue s = .next t ∧
        exec .bitstepBlue { s with engine := some { e with reg := other } } = .next t)

/-! ### The byte-step -/

/-- The whole of `BYTE` (42_bit_transition.md R93): `NotConstructed` with no engine; else eight iterations, each with the
input bit, the output bit from the tap before the bit-step (R91), the packing (R92) and the bit-step under the control bit
(R94, the ciphertext bit, 90_conflicts.md C2); output bit `j` is bit `j` of the result byte (R92). -/
def Obligations.ByteRunsEightBitSteps : Prop :=
  ∀ (s : State) (b : Byte),
    match s.engine with
    | none => exec (.byte b) s = .next { s with responses := ⟨.notConstructed, none⟩ :: s.responses }
    | some e =>
      ∃ (S : Nat → Vector Bool e.n) (r : Nat → Byte) (out : Nat → Bool),
        S 0 = e.reg ∧ r 0 = 0#8 ∧
        (∀ j < 8,
          out j = (b.getLsbD j ^^ (S j)[e.n - 1]'(Nat.sub_lt e.key.pos Nat.one_pos)) ∧
          r (j + 1) = (r j >>> 1) ||| (if out j then 0x80#8 else 0x00#8) ∧
          S (j + 1) = bitStep e.key (if e.mode = .encrypt then out j else b.getLsbD j) (S j) ∧
          (r 8).getLsbD j = out j) ∧
        exec (.byte b) s =
          .next { s with engine := some { e with reg := S 8 }, responses := ⟨.ok, some (.byte (r 8))⟩ :: s.responses }

/-- After a `BYTE`, `S[0]` is bit 7 of the ciphertext byte: the returned byte when encrypting, the input byte when decrypting
(42_bit_transition.md R100). -/
def Obligations.PositionZeroHoldsTheLastCiphertextBit : Prop :=
  ∀ (s : State) (e : Engine) (b : Byte), s.engine = some e →
    ∃ (reg : Vector Bool e.n) (r : Byte),
      exec (.byte b) s =
        .next { s with engine := some { e with reg := reg }, responses := ⟨.ok, some (.byte r)⟩ :: s.responses } ∧
      reg[0]'e.key.pos = (match e.mode with | .encrypt => r | .decrypt => b).getLsbD 7

/-- The case `n = 1`: with `q 0` the bit of `S` before the byte and `q (j+1)` ciphertext bit `j`, output bit `j` is input bit
`j` XOR `q j`, and `S` ends as `q 8`; the Key is never read (42_bit_transition.md R100). -/
def Obligations.SizeOneHasAClosedForm : Prop :=
  ∀ (s : State) (key : Key 1) (mode : Mode) (x : Bool) (b : Byte), s.engine = some ⟨1, key, mode, #v[x]⟩ →
    ∃ (q : Nat → Bool) (r : Byte),
      q 0 = x ∧
      (∀ j < 8, r.getLsbD j = (b.getLsbD j ^^ q j) ∧
        q (j + 1) = match mode with | .encrypt => r.getLsbD j | .decrypt => b.getLsbD j) ∧
      exec (.byte b) s =
        .next { s with engine := some ⟨1, key, mode, #v[q 8]⟩, responses := ⟨.ok, some (.byte r)⟩ :: s.responses }

/-- The first keystream bit after a seeding is `iv.bits[n-1]`: a `BYTE` right after a successful `LDIV` returns a byte whose
bit 0 is bit 0 of the input XOR that bit (42_bit_transition.md R101); so two IVs that differ there give different first bits
(R104). -/
def Obligations.FirstKeystreamBitIsTheTopIvBit : Prop :=
  ∀ (s t : State) (b : Byte), exec (.ldiv true) s = .next t → t.responses = ⟨.ok, none⟩ :: s.responses →
    ∃ u r, exec (.byte b) t = .next u ∧ u.responses = ⟨.ok, some (.byte r)⟩ :: t.responses ∧
      some (b.getLsbD 0 ^^ r.getLsbD 0) = s.channels.iv.bits.getLast?

/-- The register and the keystream are driven by the ciphertext alone: two engines with equal Key and `S`, in any modes, that
take part in the same ciphertext byte end with equal `S` and used the same keystream byte (42_bit_transition.md R94, R101;
70_reset_and_hazards.md R133). -/
def Obligations.EqualCiphertextKeepsEnginesInLockStep : Prop :=
  ∀ (s : State) (e : Engine) (m : Mode) (b₁ b₂ r₁ r₂ : Byte) (t₁ t₂ : State), s.engine = some e →
    exec (.byte b₁) s = .next t₁ → t₁.responses = ⟨.ok, some (.byte r₁)⟩ :: s.responses →
    exec (.byte b₂) { s with engine := some { e with mode := m } } = .next t₂ →
    t₂.responses = ⟨.ok, some (.byte r₂)⟩ :: s.responses →
    ciphertextByte e.mode b₁ r₁ = ciphertextByte m b₂ r₂ →
      b₁ ^^^ r₁ = b₂ ^^^ r₂ ∧
      ∃ reg : Vector Bool e.n, t₁.engine = some { e with reg := reg } ∧
        t₂.engine = some { e with mode := m, reg := reg }

/-! ### The process operation -/

/-- The whole of 42_bit_transition.md R95: any word with `op = 0x04`, with its tests in order, the sum exact; on success the
`k`-th byte-step reads `BUF[offset + k]` and gives `OUT[k]`, in ascending order. -/
def Obligations.ProcWordFollowsItsRule : Prop :=
  ∀ (s : State) (w : CommandWord) (ch : Channels) (rest : List Issue),
    s.stream = .command w ch :: rest → opField w = 0x04#8 →
      if immField w ≠ 0#8 then step s = .next (s.answered ch rest s.engine ⟨.illegalCommand, none⟩)
      else
        match s.engine with
        | none => step s = .next (s.answered ch rest none ⟨.notConstructed, none⟩)
        | some e =>
          if ch.desc.offset.toInt < 0 ∨ ch.desc.length.toInt < 0 ∨
              ch.desc.offset.toInt + ch.desc.length.toInt > (ch.desc.buf.length : Int) then
            step s = .next (s.answered ch rest (some e) ⟨.boundsError, none⟩)
          else ∃ (E : Nat → Engine) (out : List Byte),
            E 0 = e ∧ (out.length : Int) = ch.desc.length.toInt ∧
            (∀ k < out.length, ∃ b, ch.desc.buf[ch.desc.offset.toInt.toNat + k]? = some b ∧
              E (k + 1) = ((E k).byteStep b).1 ∧ out[k]? = some ((E k).byteStep b).2) ∧
            step s = .next (s.answered ch rest (some (E out.length)) ⟨.ok, some (.out out)⟩)

/-- `PROC` completes: on a `READY` engine with the range inside the buffer it answers `OK` with exactly `length` bytes,
evolves `S` alone, and with `length = 0` leaves `S` too (42_bit_transition.md R95, 30_encoding.md R65). -/
def Obligations.ProcAnswersLengthBytes : Prop :=
  ∀ (s : State) (e : Engine), s.engine = some e →
    0 ≤ s.channels.desc.offset.toInt → 0 ≤ s.channels.desc.length.toInt →
    s.channels.desc.offset.toInt + s.channels.desc.length.toInt ≤ (s.channels.desc.buf.length : Int) →
      ∃ (reg : Vector Bool e.n) (out : List Byte),
        exec .proc s =
          .next { s with engine := some { e with reg := reg }, responses := ⟨.ok, some (.out out)⟩ :: s.responses } ∧
        (out.length : Int) = s.channels.desc.length.toInt ∧
        (s.channels.desc.length = 0#32 → reg = e.reg ∧ out = [])

/-- A successful `PROC` has the same effect on the engine and returns the same bytes, in the same order, as `BYTE` commands for
the bytes of its range (42_bit_transition.md R97). -/
def Obligations.ProcIsASequenceOfBytes : Prop :=
  ∀ (s : State) (e : Engine) (off len : Nat), s.engine = some e →
    s.channels.desc.offset.toInt = off → s.channels.desc.length.toInt = len →
    off + len ≤ s.channels.desc.buf.length →
      ∃ (e' : Engine) (out : List Byte),
        exec .proc s =
          .next { s with engine := some e', responses := ⟨.ok, some (.out out)⟩ :: s.responses } ∧
        execBytes ((s.channels.desc.buf.drop off).take len) s =
          .next { s with
            engine := some e'
            responses := (out.map fun r => ⟨.ok, some (.byte r)⟩).reverse ++ s.responses }

/-- A `PROC` splits freely: over two consecutive sub-ranges it gives the same concatenated output and the same final engine
(42_bit_transition.md R97). -/
def Obligations.ProcSplitsOverConsecutiveRanges : Prop :=
  ∀ (s t : State) (off len₁ len₂ both second : DescWord) (out₁ : List Byte),
    second.toInt = off.toInt + len₁.toInt → both.toInt = len₁.toInt + len₂.toInt → 0 ≤ len₂.toInt →
    second.toInt + len₂.toInt ≤ (s.channels.desc.buf.length : Int) →
    exec .proc { s with channels := { s.channels with desc := ⟨s.channels.desc.buf, off, len₁⟩ } } = .next t →
    t.responses = ⟨.ok, some (.out out₁)⟩ :: s.responses →
      ∃ u v out₂,
        exec .proc { t with channels := { s.channels with desc := ⟨s.channels.desc.buf, second, len₂⟩ } } = .next u ∧
        u.responses = ⟨.ok, some (.out out₂)⟩ :: t.responses ∧
        exec .proc { s with channels := { s.channels with desc := ⟨s.channels.desc.buf, off, both⟩ } } = .next v ∧
        v.responses = ⟨.ok, some (.out (out₁ ++ out₂))⟩ :: s.responses ∧ v.engine = u.engine

/-- Bytes of `BUF` outside the range do not influence `PROC`: with another buffer of the same length that agrees on
`offset .. offset+length-1` it leaves the same engine and answers the same (42_bit_transition.md R95 corner case f). -/
def Obligations.ProcReadsOnlyItsRange : Prop :=
  ∀ (s : State) (buf : List Byte), buf.length = s.channels.desc.buf.length →
    (∀ a : Nat, s.channels.desc.offset.toInt ≤ (a : Int) →
      (a : Int) < s.channels.desc.offset.toInt + s.channels.desc.length.toInt →
      buf[a]? = s.channels.desc.buf[a]?) →
    ∃ (e : Option Engine) (r : Response),
      exec .proc s = .next { s with engine := e, responses := r :: s.responses } ∧
      exec .proc { s with channels := { s.channels with desc := { s.channels.desc with buf := buf } } } =
        .next { s with
          channels := { s.channels with desc := { s.channels.desc with buf := buf } }
          engine := e
          responses := r :: s.responses }

/-- The round trip (42_bit_transition.md R98): for every well-formed Key, IV of its size and buffer that a descriptor can show,
from the power-on reset state, `CONSTRUCT ENCRYPT` and `PROCALL d` answer some `c` of the same length, `CONSTRUCT DECRYPT` and
`PROCALL c` answer `d`, and both engines end with equal registers. That the host has received no response at reset is log entry
3. -/
def Obligations.DecryptingTheEncryptionGivesThePlaintext : Prop :=
  ∀ (k : KeyOperand) (iv : IvOperand) (d : List Byte), k.WellFormed → iv.size = k.size → d.length < 2 ^ 31 →
    ∃ (c : List Byte) (t u : State) (e : Engine),
      core.run 2 { State.reset with
        stream := [.command 0x010E#16 ⟨k, iv, Channels.idle.desc⟩, .command 0x0400#16 ⟨k, iv, wholeBuffer d⟩] } = .next t ∧
      t.responses = [⟨.ok, some (.out c)⟩, ⟨.ok, none⟩] ∧ c.length = d.length ∧
      core.run 2 { State.reset with
        stream := [.command 0x010F#16 ⟨k, iv, Channels.idle.desc⟩, .command 0x0400#16 ⟨k, iv, wholeBuffer c⟩] } = .next u ∧
      u.responses = [⟨.ok, some (.out d)⟩, ⟨.ok, none⟩] ∧
      t.engine = some { e with mode := .encrypt } ∧ u.engine = some { e with mode := .decrypt }

/-- The other composition (42_bit_transition.md R98, last sentence): on `READY` engines with equal Key and register,
decrypting any buffer and encrypting the result gives the buffer back, and the registers end equal. -/
def Obligations.EncryptingTheDecryptionGivesTheInput : Prop :=
  ∀ (s : State) (e : Engine) (x : List Byte), s.engine = some e → x.length < 2 ^ 31 →
    ∃ (y : List Byte) (reg : Vector Bool e.n),
      exec .proc { s with
          engine := some { e with mode := .decrypt }, channels := { s.channels with desc := wholeBuffer x } } =
        .next { s with
          engine := some { e with mode := .decrypt, reg := reg }
          channels := { s.channels with desc := wholeBuffer x }
          responses := ⟨.ok, some (.out y)⟩ :: s.responses } ∧
      exec .proc { s with
          engine := some { e with mode := .encrypt }, channels := { s.channels with desc := wholeBuffer y } } =
        .next { s with
          engine := some { e with mode := .encrypt, reg := reg }
          channels := { s.channels with desc := wholeBuffer y }
          responses := ⟨.ok, some (.out x)⟩ :: s.responses }

/-- The round trip holds for either reading of the control bit (93_implementation_defined.md U10), for every Key, register
and byte list, and both ends leave the same register. -/
def Obligations.RoundTripHoldsForEitherFeedback : Prop :=
  ∀ (f : Feedback) (n : Nat) (k : Key n) (s : Vector Bool n) (d : List Byte),
    byteSteps f .decrypt k s (byteSteps f .encrypt k s d).2 = ((byteSteps f .encrypt k s d).1, d) ∧
    byteSteps f .encrypt k s (byteSteps f .decrypt k s d).2 = ((byteSteps f .decrypt k s d).1, d)

/-! ### Faults, responses and frames -/

/-- What a command leaves unchanged: the sampled channels and what is presented; a host command gives exactly one response,
added to those before it; a micro-operation gives none; whatever the command, an engine that was there keeps its Key and
`MODE` (10_state.md R26, R27; 70_reset_and_hazards.md R137). -/
def Obligations.CommandFrame : Prop :=
  ∀ (i : Instr) (s t : State), exec i s = .next t →
    t.channels = s.channels ∧ t.stream = s.stream ∧
    (if i.fromHost then ∃ r, t.responses = r :: s.responses else t.responses = s.responses) ∧
    ∀ e, s.engine = some e → ∃ reg : Vector Bool e.n, t.engine = some { e with reg := reg }

/-- A command that answers with a status other than `OK` has no result and has changed nothing (60_exceptions.md R113). -/
def Obligations.FaultingCommandChangesNothing : Prop :=
  ∀ (s t : State) (w : CommandWord) (ch : Channels) (rest : List Issue) (r : Response) (rs : List Response),
    s.stream = .command w ch :: rest → step s = .next t → t.responses = r :: rs → r.status ≠ .ok →
      r.result = none ∧ t = { s with channels := ch, stream := rest, responses := r :: s.responses }

/-- After a fault the engine accepts what comes next exactly as if the faulting command had never been issued
(60_exceptions.md R114). -/
def Obligations.AfterAFaultTheEngineContinues : Prop :=
  ∀ (s t u : State) (w : CommandWord) (ch : Channels) (rest : List Issue) (r : Response) (rs : List Response),
    s.stream = .command w ch :: rest → step s = .next t → t.responses = r :: rs → r.status ≠ .ok →
    step { s with stream := rest } = .next u →
      ∃ v new, step t = .next v ∧ v.engine = u.engine ∧ v.stream = u.stream ∧
        u.responses = new ++ s.responses ∧ v.responses = new ++ t.responses

/-- Everything a command does is a function of the engine before it and its operands: two states that agree in the engine and
the channels get the same engine and the same new responses (42_bit_transition.md R99, 70_reset_and_hazards.md R137). -/
def Obligations.CommandsDependOnlyOnEngineAndOperands : Prop :=
  ∀ (i : Instr) (s s' t : State), s.engine = s'.engine → s.channels = s'.channels → exec i s = .next t →
    ∃ t' new, exec i s' = .next t' ∧ t'.engine = t.engine ∧
      t.responses = new ++ s.responses ∧ t'.responses = new ++ s'.responses

/-- The status codes of 60_exceptions.md R106. -/
def Obligations.StatusCodesAreTheTables : Prop :=
  [Status.ok, .invalidSize, .nullArgument, .sizeMismatch, .boundsError, .illegalCommand, .notConstructed,
    .alreadyConstructed].map statusCode = [0, 1, 2, 3, 4, 5, 6, 7] ∧
  ∀ f g : Status, statusCode f = statusCode g → f = g

/-- Every step keeps: no response the host has received carries a result beside a status other than `OK`, and none is
`InvalidSize` (30_encoding.md R56, 60_exceptions.md R106, R108). -/
def Obligations.StepKeepsResponsesWellFormed : Prop :=
  ∀ s t : State, s.ResponsesWellFormed → step s = .next t → t.ResponsesWellFormed

/-- The state after reset meets the response invariant and the launch premises (nothing is presented and nothing received there:
log entry 3). -/
def Obligations.ResetMeetsTheInvariants : Prop :=
  State.reset.ResponsesWellFormed ∧ State.reset.Launch

/-- Under the launch premises P1 and P3 no step stops: every step answers a next state, which meets them again
(70_reset_and_hazards.md R128, R137; 41_construct_reset.md R83). -/
def Obligations.LaunchedMachineNeverStops : Prop :=
  ∀ s : State, s.Launch → ∃ t, step s = .next t ∧ t.Launch

/-! ### Parameters, tables, provisioning and scripts -/

/-- `IDXW` bits hold every index `0..n-1`, and no smaller positive width does (00_scope.md R8). -/
def Obligations.IndexWidthIsLeast : Prop :=
  ∀ n : Nat, 1 ≤ n → 1 ≤ Config.idxw n ∧ n ≤ 2 ^ Config.idxw n ∧ ∀ w, 1 ≤ w → n ≤ 2 ^ w → Config.idxw n ≤ w

/-- Both permutation tables of a bound Key are bijections on `0..n-1` (10_state.md R30). -/
def Obligations.BoundPermutationsAreBijections : Prop :=
  ∀ (n : Nat) (k : Key n),
    Function.Bijective (fun i : Fin n => k.rp[i]) ∧ Function.Bijective (fun i : Fin n => k.bp[i])

/-- What the factories create for one size is accepted by `CONSTRUCT` with `OK`; they create something exactly for a positive
size and else fail with `InvalidSize` (40_provisioning.md R70, R71, R72; 41_construct_reset.md R77). -/
def Obligations.CreatedKeyAndIvAreAccepted : Prop :=
  (∀ (n : Int) (k : KeyOperand) (v : IvOperand) (s : State) (mode : Mode),
    KeyCreates n (.made k) → IvCreates n (.made v) → s.engine = none →
      ∃ e, exec (.construct mode true true true) { s with channels := { s.channels with key := k, iv := v } } =
        .next { s with
          channels := { s.channels with key := k, iv := v }
          engine := some e
          responses := ⟨.ok, none⟩ :: s.responses }) ∧
  ∀ n : Int,
    ((∃ k, KeyCreates n (.made k)) ↔ 1 ≤ n) ∧ ((∃ v, IvCreates n (.made v)) ↔ 1 ≤ n) ∧
    ∀ f, (KeyCreates n (.failed f) ↔ n ≤ 0 ∧ f = .invalidSize) ∧ (IvCreates n (.failed f) ↔ n ≤ 0 ∧ f = .invalidSize)

/-- The expansions of the pseudo-commands (30_encoding.md R67). -/
def Obligations.PseudoCommandsExpand : Prop :=
  ∀ (env : Bindings) (key iv : Option Name) (x : Name) (b : List Byte) (bs : List Byte),
    assembleLine env (.reset iv) = assembleLine env (.command (.ldiv iv)) ∧
    assembleLine env (.encryptor key iv) = assembleLine env (.command (.construct (some .encrypt) key iv)) ∧
    assembleLine env (.decryptor key iv) = assembleLine env (.command (.construct (some .decrypt) key iv)) ∧
    (lookupName env x = some (.buf b) →
      assembleLine env (.procAll x) = assembleLine env (.command (.proc x 0 b.length))) ∧
    assembleLine env (.bytes bs) =
      some (bs.map fun c => .command (0x0300#16 ||| c.zeroExtend 16) Channels.idle)

/-- A command line whose names are bound to objects of the right kind, and whose integers a descriptor can show, assembles;
and a command line that assembles gives exactly one word, which decodes to the command, `null` as a 0 presence flag, with the
named objects on the channels (30_encoding.md R66, R56). -/
def Obligations.AssembledLineIsItsCommand : Prop :=
  ∀ (env : Bindings) (c : ScriptCommand),
    (c.OperandsBound env → ∃ i, assembleLine env (.command c) = some [i]) ∧
    ∀ is : List Issue, assembleLine env (.command c) = some is →
      ∃ (w : CommandWord) (ch : Channels), is = [.command w ch] ∧
        match c with
        | .construct mode key iv =>
          (∃ m, decodeCommand w = .command (.construct m mode.isSome key.isSome iv.isSome) ∧
            ∀ m', mode = some m' → m = m') ∧
          (∀ x, key = some x → lookupName env x = some (.key ch.key)) ∧
          ∀ x, iv = some x → lookupName env x = some (.iv ch.iv)
        | .ldiv iv =>
          decodeCommand w = .command (.ldiv iv.isSome) ∧ ∀ x, iv = some x → lookupName env x = some (.iv ch.iv)
        | .byte b => decodeCommand w = .command (.byte b)
        | .proc x offset length =>
          decodeCommand w = .command .proc ∧ lookupName env x = some (.buf ch.desc.buf) ∧
          ch.desc.offset.toInt = offset ∧ ch.desc.length.toInt = length
end

