-- ==== Sys2Proof/Laws/Decode.lean ====
section
/-! SUPPORT. Laws of the decoder and the encoder. -/

namespace Sys2Proof

@[simp] theorem Mode.ofBit_toBit (m : Mode) : Mode.ofBit m.toBit = m := by cases m <;> rfl

@[simp] theorem Mode.toBit_ofBit (b : Bool) : (Mode.ofBit b).toBit = b := by cases b <;> rfl

/-- No word selects two rows: the patterns differ in the opcode, which every mask keeps (30_encoding.md R63). -/
theorem opcodeRows_disjoint :
    opcodeRows.Pairwise fun r r' => r.mask &&& r'.mask &&& r.pattern ≠ r.mask &&& r'.mask &&& r'.pattern := by
  decide

end Sys2Proof
end

