-- ==== Sys2Proof/Laws/State.lean ====
section
/-! SUPPORT. One lemma per field per update of the state, so that no proof unfolds a record update. -/

namespace Sys2Proof.Machine

variable (s : State) (r : Response) (f : Status) (v : Option Result) (e : Engine) (ch : Channels)

@[simp] theorem State.respond_engine : (s.respond r).engine = s.engine := rfl
@[simp] theorem State.respond_channels : (s.respond r).channels = s.channels := rfl
@[simp] theorem State.respond_stream : (s.respond r).stream = s.stream := rfl
@[simp] theorem State.respond_responses : (s.respond r).responses = r :: s.responses := rfl

@[simp] theorem State.raise_engine : (s.raise f).engine = s.engine := rfl
@[simp] theorem State.raise_channels : (s.raise f).channels = s.channels := rfl
@[simp] theorem State.raise_stream : (s.raise f).stream = s.stream := rfl
@[simp] theorem State.raise_responses : (s.raise f).responses = ⟨f, none⟩ :: s.responses := rfl

@[simp] theorem State.respondOk_engine : (s.respondOk v).engine = s.engine := rfl
@[simp] theorem State.respondOk_channels : (s.respondOk v).channels = s.channels := rfl
@[simp] theorem State.respondOk_stream : (s.respondOk v).stream = s.stream := rfl
@[simp] theorem State.respondOk_responses : (s.respondOk v).responses = ⟨.ok, v⟩ :: s.responses := rfl

@[simp] theorem State.setEngine_engine : (s.setEngine e).engine = some e := rfl
@[simp] theorem State.setEngine_channels : (s.setEngine e).channels = s.channels := rfl
@[simp] theorem State.setEngine_stream : (s.setEngine e).stream = s.stream := rfl
@[simp] theorem State.setEngine_responses : (s.setEngine e).responses = s.responses := rfl

@[simp] theorem State.powerOnReset_engine : s.powerOnReset.engine = none := rfl
@[simp] theorem State.powerOnReset_channels : s.powerOnReset.channels = s.channels := rfl
@[simp] theorem State.powerOnReset_stream : s.powerOnReset.stream = s.stream := rfl
@[simp] theorem State.powerOnReset_responses : s.powerOnReset.responses = s.responses := rfl

@[simp] theorem State.sample_engine : (s.sample ch).engine = s.engine := rfl
@[simp] theorem State.sample_channels : (s.sample ch).channels = ch := rfl
@[simp] theorem State.sample_stream : (s.sample ch).stream = s.stream := rfl
@[simp] theorem State.sample_responses : (s.sample ch).responses = s.responses := rfl

/-- `LIFE = READY` exactly when an engine is constructed (10_state.md R28). -/
theorem State.life_ready_iff : s.life = .ready ↔ s.engine.isSome = true := by
  unfold State.life; cases s.engine <;> simp

/-- `LIFE = UNCONSTRUCTED` exactly when there is no engine (10_state.md R28). -/
theorem State.life_unconstructed_iff : s.life = .unconstructed ↔ s.engine = none := by
  unfold State.life; cases s.engine <;> simp

end Sys2Proof.Machine
end

