-- ==== Sys2Proof/Laws/Ops.lean ====
section
/-! SUPPORT. What each shared operation does, said once: the bit-step lane by lane, the byte-step by its trace of registers,
the process operation by its bytes. -/

namespace Sys2Proof.Machine

variable {n : Nat}

/-- Position 0 latches the control bit (42_bit_transition.md R88, R89). -/
theorem bitStep_zero (k : Key n) (c : Bool) (s : Vector Bool n) : (bitStep k c s)[0]'k.pos = c := by
  simp [bitStep]

/-- Lane `i >= 1` gathers through the selected permutation from the old register (42_bit_transition.md R90). -/
theorem bitStep_lane (k : Key n) (c : Bool) (s : Vector Bool n) (i : Fin n) (h : 0 < i.val) :
    (bitStep k c s)[i] = (s[(k.permutation c)[i]] ^^ (k.mask c)[i]) := by
  simp [bitStep, Nat.pos_iff_ne_zero.mp h]

@[simp] theorem Key.permutation_red (k : Key n) : k.permutation true = k.rp := rfl
@[simp] theorem Key.permutation_blue (k : Key n) : k.permutation false = k.bp := rfl
@[simp] theorem Key.mask_red (k : Key n) : k.mask true = k.rb := rfl
@[simp] theorem Key.mask_blue (k : Key n) : k.mask false = k.bb := rfl

@[simp] theorem Engine.bitStep_n (e : Engine) (c : Bool) : (e.bitStep c).n = e.n := rfl
@[simp] theorem Engine.bitStep_key (e : Engine) (c : Bool) : (e.bitStep c).key = e.key := rfl
@[simp] theorem Engine.bitStep_mode (e : Engine) (c : Bool) : (e.bitStep c).mode = e.mode := rfl
@[simp] theorem Engine.bitStep_reg (e : Engine) (c : Bool) :
    (e.bitStep c).reg = Machine.bitStep e.key c e.reg := rfl
@[simp] theorem Engine.byteStep_n (e : Engine) (b : Byte) : (e.byteStep b).1.n = e.n := rfl
@[simp] theorem Engine.byteStep_key (e : Engine) (b : Byte) : (e.byteStep b).1.key = e.key := rfl
@[simp] theorem Engine.byteStep_mode (e : Engine) (b : Byte) : (e.byteStep b).1.mode = e.mode := rfl
@[simp] theorem Engine.byteSteps_n (e : Engine) (bs : List Byte) : (e.byteSteps bs).1.n = e.n := rfl
@[simp] theorem Engine.byteSteps_key (e : Engine) (bs : List Byte) : (e.byteSteps bs).1.key = e.key := rfl
@[simp] theorem Engine.byteSteps_mode (e : Engine) (bs : List Byte) : (e.byteSteps bs).1.mode = e.mode := rfl

/-- The bits of a packed byte: the old bits one place lower, the new one on top (42_bit_transition.md R92). -/
theorem packBit_getLsbD (r : Byte) (o : Bool) (j : Nat) (h : j < 8) :
    (packBit r o).getLsbD j = if j = 7 then o else r.getLsbD (j + 1) := by
  obtain rfl | h7 := eq_or_ne j 7
  · cases o <;> simp [packBit]
  · have : j < 7 := by omega
    cases o <;> simp [packBit, h7, BitVec.getLsbD_ushiftRight, Nat.add_comm]
    intro h'; interval_cases j <;> simp_all

/-- Eight packed bits: bit `j` of the result byte is the bit packed in iteration `j` (42_bit_transition.md R92). -/
theorem packBit_eight (o : Nat → Bool) (j : Nat) (h : j < 8) :
    ((List.range 8).foldl (fun r i => packBit r (o i)) 0#8).getLsbD j = o j := by
  simp only [List.range, List.range.loop, List.foldl]
  interval_cases j <;> simp (disch := omega) only [packBit_getLsbD] <;> rfl

/-- The byte-step by its trace: `S j` is the register before iteration `j` (42_bit_transition.md R91, R92, R93). -/
theorem byteStep_trace (f : Feedback) (m : Mode) (k : Key n) (s : Vector Bool n) (b : Byte) :
    ∃ S : Nat → Vector Bool n, S 0 = s ∧ (byteStep f m k s b).1 = S 8 ∧
      ∀ j < 8,
        S (j + 1) = bitStep k (controlBit f m (b.getLsbD j) (b.getLsbD j ^^ topCell k (S j))) (S j) ∧
        (byteStep f m k s b).2.getLsbD j = (b.getLsbD j ^^ topCell k (S j)) := by
  let S : Nat → Vector Bool n := fun j =>
    Nat.rec s (fun j t => bitStep k (controlBit f m (b.getLsbD j) (b.getLsbD j ^^ topCell k t)) t) j
  have hS : ∀ j, S (j + 1) =
      bitStep k (controlBit f m (b.getLsbD j) (b.getLsbD j ^^ topCell k (S j))) (S j) := fun _ => rfl
  have hrun : byteStep f m k s b =
      (S 8, (List.range 8).foldl (fun r i => packBit r (b.getLsbD i ^^ topCell k (S i))) 0#8) := rfl
  refine ⟨S, rfl, by rw [hrun], fun j h => ⟨hS j, ?_⟩⟩
  rw [hrun]
  exact packBit_eight (fun i => b.getLsbD i ^^ topCell k (S i)) j h

@[simp] theorem byteSteps_nil (f : Feedback) (m : Mode) (k : Key n) (s : Vector Bool n) :
    byteSteps f m k s [] = (s, []) := rfl

@[simp] theorem byteSteps_cons (f : Feedback) (m : Mode) (k : Key n) (s : Vector Bool n) (b : Byte)
    (bs : List Byte) :
    byteSteps f m k s (b :: bs) =
      ((byteSteps f m k (byteStep f m k s b).1 bs).1,
        (byteStep f m k s b).2 :: (byteSteps f m k (byteStep f m k s b).1 bs).2) := rfl

/-- One byte comes out per byte that goes in (42_bit_transition.md R95). -/
@[simp] theorem byteSteps_length (f : Feedback) (m : Mode) (k : Key n) (s : Vector Bool n) (bs : List Byte) :
    (byteSteps f m k s bs).2.length = bs.length := by
  induction bs generalizing s with
  | nil => rfl
  | cons b bs ih => simp [ih]

/-- The register carries from the first bytes to the later ones (42_bit_transition.md R95). -/
theorem byteSteps_append (f : Feedback) (m : Mode) (k : Key n) (s : Vector Bool n) (as bs : List Byte) :
    byteSteps f m k s (as ++ bs) =
      ((byteSteps f m k (byteSteps f m k s as).1 bs).1,
        (byteSteps f m k s as).2 ++ (byteSteps f m k (byteSteps f m k s as).1 bs).2) := by
  induction as generalizing s with
  | nil => rfl
  | cons a as ih => simp [ih]

end Sys2Proof.Machine
end

