-- ==== Sys2Proof/Laws/Operands.lean ====
section
/-! SUPPORT. What each operand form yields, said once: a Key is bound exactly where the presented object is one, a register is
seeded exactly where the sizes agree, `PROC` reads the bytes of its range. -/

namespace Sys2Proof.Machine

theorem bitTable_eq_none_iff (n : Nat) (l : List Bool) : bitTable n l = none ↔ l.length ≠ n := by
  unfold bitTable; split <;> simp_all

theorem bitTable_toList {n : Nat} {l : List Bool} {v : Vector Bool n} (h : bitTable n l = some v) :
    v.toList = l := by
  unfold bitTable at h
  split at h
  · next hl =>
    cases h
    apply List.ext_getElem
    · simp [hl]
    · intro i _ _; simp
  · cases h

theorem indexTable_toList {n : Nat} {l : List Nat} {v : Vector (Fin n) n} (h : indexTable n l = some v) :
    v.toList.map Fin.val = l := by
  unfold indexTable at h
  split at h
  · next hl =>
    cases h
    apply List.ext_getElem
    · simp [hl.1]
    · intro i _ _; simp
  · cases h

theorem indexTable_isSome_iff (n : Nat) (l : List Nat) :
    (indexTable n l).isSome = true ↔ l.length = n ∧ ∀ x ∈ l, x < n := by
  unfold indexTable; split <;> simp_all

/-- The register is seeded exactly where the sizes agree (41_construct_reset.md R77, R78). -/
theorem seedRegister_eq_none_iff (n : Nat) (v : IvOperand) : seedRegister n v = none ↔ v.size ≠ n :=
  bitTable_eq_none_iff n v.bits

/-- A seeded register holds the IV's bits (41_construct_reset.md R77, R78). -/
theorem seedRegister_toList {n : Nat} {v : IvOperand} {r : Vector Bool n} (h : seedRegister n v = some r) :
    r.toList = v.bits := bitTable_toList h

theorem seedRegister_isSome {n : Nat} {v : IvOperand} (h : v.size = n) : ∃ r, seedRegister n v = some r := by
  cases hr : seedRegister n v with
  | none => exact absurd h ((seedRegister_eq_none_iff n v).mp hr)
  | some r => exact ⟨r, rfl⟩

/-- Counting an index among the entries counts its value among their numbers. -/
theorem count_indexTable {n : Nat} {l : List Nat} {v : Vector (Fin n) n} (h : indexTable n l = some v)
    (x : Fin n) : v.toList.count x = l.count x.val := by
  rw [← indexTable_toList h, List.count_map_of_injective _ _ Fin.val_injective]

/-- The index table of a presented permutation lists every index once, and conversely. -/
theorem eachOnce_iff {n : Nat} {l : List Nat} {v : Vector (Fin n) n} (h : indexTable n l = some v) :
    EachOnce v ↔ ∀ x ∈ List.range n, l.count x = 1 := by
  constructor
  · intro hv x hx
    rw [← count_indexTable h ⟨x, List.mem_range.mp hx⟩]
    exact hv _
  · intro hl x
    rw [count_indexTable h]
    exact hl _ (List.mem_range.mpr x.isLt)

/-- A presented object is bound exactly where it is a Key (10_state.md R30, R31). -/
theorem bindKey_isSome_iff (k : KeyOperand) : (bindKey k).isSome = true ↔ k.WellFormed := by
  have hidx := indexTable_isSome_iff k.size
  have hbit := bitTable_eq_none_iff k.size
  unfold bindKey
  split
  · next rp bp rb bb h1 h2 h3 h4 =>
    have t1 := (hidx k.rp).mp (by simp [h1])
    have t2 := (hidx k.bp).mp (by simp [h2])
    have t3 : k.rb.length = k.size := by
      by_contra hne; exact absurd ((hbit k.rb).mpr hne) (by simp [h3])
    have t4 : k.bb.length = k.size := by
      by_contra hne; exact absurd ((hbit k.bb).mpr hne) (by simp [h4])
    have e1 := eachOnce_iff h1
    have e2 := eachOnce_iff h2
    split
    · next h => simpa using ⟨h.1, ⟨t1.1, t1.2, e1.mp h.2.1⟩, ⟨t2.1, t2.2, e2.mp h.2.2⟩, t3, t4⟩
    · next h =>
      simp only [Option.isSome_none, Bool.false_eq_true, false_iff]
      intro hw
      exact h ⟨hw.1, e1.mpr hw.2.1.2.2, e2.mpr hw.2.2.1.2.2⟩
  · next h =>
    simp only [Option.isSome_none, Bool.false_eq_true, false_iff]
    intro hw
    obtain ⟨rp, h1⟩ := Option.isSome_iff_exists.mp ((hidx k.rp).mpr ⟨hw.2.1.1, hw.2.1.2.1⟩)
    obtain ⟨bp, h2⟩ := Option.isSome_iff_exists.mp ((hidx k.bp).mpr ⟨hw.2.2.1.1, hw.2.2.1.2.1⟩)
    obtain ⟨rb, h3⟩ := Option.ne_none_iff_exists'.mp fun e => ((hbit k.rb).mp e) hw.2.2.2.1
    obtain ⟨bb, h4⟩ := Option.ne_none_iff_exists'.mp fun e => ((hbit k.bb).mp e) hw.2.2.2.2
    exact h rp bp rb bb h1 h2 h3 h4

/-- The bound Key's tables are the presented ones (10_state.md R27). -/
theorem bindKey_tables {k : KeyOperand} {b : Key k.size} (h : bindKey k = some b) :
    b.rp.toList.map Fin.val = k.rp ∧ b.bp.toList.map Fin.val = k.bp ∧ b.rb.toList = k.rb ∧ b.bb.toList = k.bb := by
  unfold bindKey at h
  split at h
  · next rp bp rb bb h1 h2 h3 h4 =>
    split at h
    · cases h
      exact ⟨indexTable_toList h1, indexTable_toList h2, bitTable_toList h3, bitTable_toList h4⟩
    · cases h
  · cases h

/-- The bounds rule, over the descriptor's fields (42_bit_transition.md R95). -/
theorem descInBounds_iff (d : Desc) :
    descInBounds d = true ↔
      0 ≤ d.offset.toInt ∧ 0 ≤ d.length.toInt ∧ d.offset.toInt + d.length.toInt ≤ (d.buf.length : Int) :=
  decide_eq_true_iff

/-- `PROC` reads exactly `length` bytes (42_bit_transition.md R95). -/
theorem descBytes_length (d : Desc) (h : descInBounds d = true) : (descBytes d).length = (descLength d).toNat := by
  obtain ⟨h1, h2, h3⟩ := (descInBounds_iff d).mp h
  simp only [descBytes, List.length_take, List.length_drop, descOffset, descLength]
  omega

/-- The `k`-th input byte is `BUF[offset + k]` (42_bit_transition.md R95). -/
theorem descBytes_getElem? (d : Desc) (k : Nat) (hk : k < (descLength d).toNat) :
    (descBytes d)[k]? = d.buf[(descOffset d).toNat + k]? := by
  simp [descBytes, hk]

end Sys2Proof.Machine
end

