-- ==== Sys2Proof/Laws/Exec.lean ====
section
/-! SUPPORT. What each meaning can answer, said once: the cases of a next state. Later proofs cite these and unfold no
meaning. -/

namespace Sys2Proof.Machine

/-- The statuses a command of the engine can end with other than `OK` (60_exceptions.md R106, R108). -/
abbrev EngineFault (f : Status) : Prop := f ≠ .ok ∧ f ≠ .invalidSize

/-- Where `CONSTRUCT` binds and seeds (41_construct_reset.md R77). -/
theorem execConstruct_binds {s : State} (mode : Mode) {key : Key s.channels.key.size}
    {reg : Vector Bool s.channels.key.size} (he : s.engine = none) (hk : bindKey s.channels.key = some key)
    (hr : seedRegister s.channels.key.size s.channels.iv = some reg) :
    execConstruct mode true true true s =
      .next ((s.setEngine ⟨s.channels.key.size, key, mode, reg⟩).respondOk none) := by
  have hs : s.channels.iv.size = s.channels.key.size := by
    by_contra hne
    simp [(seedRegister_eq_none_iff _ _).mpr hne] at hr
  simp [execConstruct, he, hk, hr, hs]

/-- Where `LDIV` seeds (41_construct_reset.md R78). -/
theorem execLdiv_seeds {s : State} {e : Engine} {reg : Vector Bool e.n} (he : s.engine = some e)
    (hr : seedRegister e.n s.channels.iv = some reg) :
    execLdiv true s = .next ((s.setEngine { e with reg := reg }).respondOk none) := by
  simp [execLdiv, he, hr]

/-- `BYTE` on a constructed engine (42_bit_transition.md R93). -/
theorem execByte_ready {s : State} {e : Engine} (b : Byte) (he : s.engine = some e) :
    execByte b s = .next ((s.setEngine (e.byteStep b).1).respondOk (some (.byte (e.byteStep b).2))) := by
  simp [execByte, he]

/-- `PROC` with its range inside the buffer (42_bit_transition.md R95). -/
theorem execProc_ready {s : State} {e : Engine} (he : s.engine = some e)
    (hb : descInBounds s.channels.desc = true) :
    execProc s = .next ((s.setEngine (e.byteSteps (descBytes s.channels.desc)).1).respondOk
      (some (.out (e.byteSteps (descBytes s.channels.desc)).2))) := by
  simp [execProc, he, hb]

/-- A `CONSTRUCT` that answers either raised a fault or bound a Key and seeded a register (41_construct_reset.md R77). -/
theorem execConstruct_next {mode : Mode} {mp kp ip : Bool} {s t : State}
    (h : execConstruct mode mp kp ip s = .next t) :
    (∃ f, EngineFault f ∧ t = s.raise f) ∨
    (s.engine = none ∧ mp = true ∧ kp = true ∧ ip = true ∧ ∃ key reg,
      bindKey s.channels.key = some key ∧ seedRegister s.channels.key.size s.channels.iv = some reg ∧
      t = (s.setEngine ⟨s.channels.key.size, key, mode, reg⟩).respondOk none) := by
  unfold execConstruct at h
  split at h
  · cases h; exact .inl ⟨_, by decide, rfl⟩
  · next he =>
    split at h
    · cases h; exact .inl ⟨_, by decide, rfl⟩
    · next hp =>
      split at h
      · cases h; exact .inl ⟨_, by decide, rfl⟩
      · split at h
        · next key reg hk hr =>
          cases h
          simp only [Bool.not_eq_true', Bool.not_eq_false, Bool.and_eq_true] at hp
          exact .inr ⟨he, hp.1.2, hp.1.1, hp.2, key, reg, hk, hr, rfl⟩
        · cases h

/-- An `LDIV` that answers either raised a fault or seeded the register (41_construct_reset.md R78). -/
theorem execLdiv_next {ip : Bool} {s t : State} (h : execLdiv ip s = .next t) :
    (∃ f, EngineFault f ∧ t = s.raise f) ∨
    ∃ e reg, s.engine = some e ∧ ip = true ∧ seedRegister e.n s.channels.iv = some reg ∧
      t = (s.setEngine { e with reg := reg }).respondOk none := by
  unfold execLdiv at h
  split at h
  · cases h; exact .inl ⟨_, by decide, rfl⟩
  · next e he =>
    split at h
    · cases h; exact .inl ⟨_, by decide, rfl⟩
    · next hp =>
      split at h
      · cases h; exact .inl ⟨_, by decide, rfl⟩
      · next reg hr => cases h; exact .inr ⟨e, reg, he, by simpa using hp, hr, rfl⟩

/-- A `BYTE` that answers either raised a fault or ran one byte-step (42_bit_transition.md R93). -/
theorem execByte_next {b : Byte} {s t : State} (h : execByte b s = .next t) :
    (∃ f, EngineFault f ∧ t = s.raise f) ∨
    ∃ e, s.engine = some e ∧
      t = (s.setEngine (e.byteStep b).1).respondOk (some (.byte (e.byteStep b).2)) := by
  unfold execByte at h
  split at h
  · cases h; exact .inl ⟨_, by decide, rfl⟩
  · next e he => cases h; exact .inr ⟨e, he, rfl⟩

/-- A `PROC` that answers either raised a fault or ran its byte-steps (42_bit_transition.md R95). -/
theorem execProc_next {s t : State} (h : execProc s = .next t) :
    (∃ f, EngineFault f ∧ t = s.raise f) ∨
    ∃ e, s.engine = some e ∧ descInBounds s.channels.desc = true ∧
      t = (s.setEngine (e.byteSteps (descBytes s.channels.desc)).1).respondOk
        (some (.out (e.byteSteps (descBytes s.channels.desc)).2)) := by
  unfold execProc at h
  split at h
  · cases h; exact .inl ⟨_, by decide, rfl⟩
  · next e he =>
    split at h
    · cases h; exact .inl ⟨_, by decide, rfl⟩
    · next hb => cases h; exact .inr ⟨e, he, hb, rfl⟩

/-- A red bit-step that answers stepped the register of an engine (42_bit_transition.md R88). -/
theorem execBitstepRed_next {s t : State} (h : execBitstepRed s = .next t) :
    ∃ e, s.engine = some e ∧ t = s.setEngine (e.bitStep true) := by
  unfold execBitstepRed at h
  split at h
  · cases h
  · next e he => cases h; exact ⟨e, he, rfl⟩

/-- A blue bit-step that answers stepped the register of an engine (42_bit_transition.md R89). -/
theorem execBitstepBlue_next {s t : State} (h : execBitstepBlue s = .next t) :
    ∃ e, s.engine = some e ∧ t = s.setEngine (e.bitStep false) := by
  unfold execBitstepBlue at h
  split at h
  · cases h
  · next e he => cases h; exact ⟨e, he, rfl⟩

/-- The three shapes of a next state: a fault was raised, a command succeeded, a micro-operation ran. -/
theorem exec_next_cases {i : Instr} {s t : State} (h : exec i s = .next t) :
    (i.fromHost = true ∧ ∃ f, EngineFault f ∧ t = s.raise f) ∨
    (i.fromHost = true ∧ ∃ e v, t = (s.setEngine e).respondOk v) ∨
    (i.fromHost = false ∧ ∃ e c, s.engine = some e ∧ t = s.setEngine (e.bitStep c)) := by
  cases i with
  | construct mode mp kp ip =>
    obtain hf | ⟨-, -, -, -, key, reg, -, -, ht⟩ := execConstruct_next h
    · exact .inl ⟨rfl, hf⟩
    · exact .inr (.inl ⟨rfl, _, _, ht⟩)
  | ldiv ip =>
    obtain hf | ⟨e, reg, -, -, -, ht⟩ := execLdiv_next h
    · exact .inl ⟨rfl, hf⟩
    · exact .inr (.inl ⟨rfl, _, _, ht⟩)
  | byte b =>
    obtain hf | ⟨e, -, ht⟩ := execByte_next h
    · exact .inl ⟨rfl, hf⟩
    · exact .inr (.inl ⟨rfl, _, _, ht⟩)
  | proc =>
    obtain hf | ⟨e, -, -, ht⟩ := execProc_next h
    · exact .inl ⟨rfl, hf⟩
    · exact .inr (.inl ⟨rfl, _, _, ht⟩)
  | bitstepRed =>
    obtain ⟨e, he, ht⟩ := execBitstepRed_next h
    exact .inr (.inr ⟨rfl, e, _, he, ht⟩)
  | bitstepBlue =>
    obtain ⟨e, he, ht⟩ := execBitstepBlue_next h
    exact .inr (.inr ⟨rfl, e, _, he, ht⟩)

end Sys2Proof.Machine
end

