-- ==== Sys2Proof/Laws/PerInstr.lean ====
section
/-! SUPPORT. Families of statements about the instruction as syntax, one lemma per constructor. -/

namespace Sys2Proof.Laws.OneRow

/-- The instruction's word selects exactly one row of the opcode table, its own; the host can issue it exactly if that word
is of format C (30_encoding.md R57, R63). -/
def Statement (i : Instr) : Prop :=
  match encode i with
  | .formatC w => (opcodeRows.filter fun r => r.selects w).map (·.mnemonic) = [i.mnemonic] ∧ i.fromHost = true
  | .formatU _ => i.fromHost = false

theorem construct (mode : Mode) (mp kp ip : Bool) : Statement (.construct mode mp kp ip) := by
  cases mode <;> cases mp <;> cases kp <;> cases ip <;> exact ⟨by decide, rfl⟩

theorem ldiv (ip : Bool) : Statement (.ldiv ip) := by
  cases ip <;> exact ⟨by decide, rfl⟩

theorem byte (b : Byte) : Statement (.byte b) := by
  refine ⟨?_, rfl⟩
  revert b
  decide

theorem proc : Statement .proc := ⟨by decide, rfl⟩

theorem bitstepRed : Statement .bitstepRed := rfl

theorem bitstepBlue : Statement .bitstepBlue := rfl

end Sys2Proof.Laws.OneRow
end

