-- ==== Sys2Proof/Tests/Slice0.lean ====
section
/-! SUPPORT. Tests on small states, each expected value from the vector or rule of the spec its comment names; ill-formed
terms that WellFormed refuses; a witness for the hypotheses of every statement. -/

namespace Sys2Proof.Tests

open Sys2Proof Sys2Proof.Machine

/-! ### Objects of 95_test_vectors.md -/

def k4 : KeyOperand := ⟨4, [2, 0, 3, 1], [1, 2, 0, 3], [true, false, true, true], [false, true, true, false]⟩
def iv4 : IvOperand := ⟨[true, false, false, true]⟩
def iv5 : IvOperand := ⟨[true, false, false, true, true]⟩

def key4 : Key 4 :=
  ⟨by decide, #v[2, 0, 3, 1], #v[1, 2, 0, 3], #v[true, false, true, true], #v[false, true, true, false],
    by decide, by decide⟩
def key8 : Key 8 :=
  ⟨by decide, #v[3, 7, 0, 5, 1, 6, 2, 4], #v[6, 2, 4, 0, 7, 1, 3, 5],
    #v[false, true, true, false, true, false, false, true], #v[true, false, false, true, true, true, false, false],
    by decide, by decide⟩
def iv8 : Vector Bool 8 := #v[true, false, true, true, false, false, true, false]
def key1 : Key 1 := ⟨by decide, #v[0], #v[0], #v[false], #v[false], by decide, by decide⟩

/-- `K4` with another row 0 in both masks. -/
def key4' : Key 4 := { key4 with rb := #v[false, false, true, true], bb := #v[true, true, true, false] }

def bits4 (a b c d : Bool) : Vector Bool 4 := #v[a, b, c, d]

def engine4 (m : Mode) (reg : Vector Bool 4) : Engine := ⟨4, key4, m, reg⟩
def ready4 (m : Mode) (reg : Vector Bool 4) : State := { State.reset with engine := some (engine4 m reg) }
def ready8 (m : Mode) (reg : Vector Bool 8) : State := { State.reset with engine := some ⟨8, key8, m, reg⟩ }

def withKeyIv (k : KeyOperand) (v : IvOperand) : Channels := { Channels.idle with key := k, iv := v }
def withDesc (bs : List Byte) (offset length : DescWord) : Channels := { Channels.idle with desc := ⟨bs, offset, length⟩ }
def State.on (s : State) (ch : Channels) : State := { s with channels := ch }
def State.facing (s : State) (is : List Issue) : State := { s with stream := is }

/-- The register and the response that a next state shows. -/
def shows : Host.Outcome State Fault Refusal → Option (Option (List Bool) × Option Response)
  | .next t => some (t.engine.map fun e => e.reg.toList, t.responses.head?)
  | .fault _ => none
  | .refused _ => none

/-- The state a step answers. -/
def next? : Host.Outcome State Fault Refusal → Option State
  | .next t => some t
  | .fault _ => none
  | .refused _ => none

/-! ### WellFormed refuses an ill-formed term for each of its checks (10_state.md R30, R33; 30_encoding.md R61) -/

theorem test_wellFormed_accepts_k4 : k4.WellFormed := by decide
theorem test_wellFormed_refuses_size_zero : ¬ (⟨0, [], [], [], []⟩ : KeyOperand).WellFormed := by decide
theorem test_wellFormed_refuses_short_red_table : ¬ { k4 with rp := [2, 0, 1] }.WellFormed := by decide
theorem test_wellFormed_refuses_red_entry_out_of_range : ¬ { k4 with rp := [2, 0, 4, 1] }.WellFormed := by decide
theorem test_wellFormed_refuses_repeated_blue_entry : ¬ { k4 with bp := [1, 2, 2, 3] }.WellFormed := by decide
theorem test_wellFormed_refuses_short_red_mask : ¬ { k4 with rb := [true, false, true] }.WellFormed := by decide
theorem test_wellFormed_refuses_long_blue_mask : ¬ { k4 with bb := [true, false, true, true, true] }.WellFormed := by
  decide
theorem test_wellFormed_refuses_empty_iv : ¬ (⟨[]⟩ : IvOperand).WellFormed := by decide
theorem replicate_buflen (n : Nat) : (⟨List.replicate n 0, 0, 0⟩ : Desc).buflen = n := List.length_replicate
theorem test_wellFormed_refuses_long_buffer : ¬ (⟨List.replicate (2 ^ 32) 0, 0, 0⟩ : Desc).WellFormed := by
  rw [Desc.WellFormed, replicate_buflen]
  exact Nat.lt_irrefl _

/-! ### Words written out from the encodings (30_encoding.md R55 to R61, 95_test_vectors.md V14) -/

theorem test_decode_construct : decodeCommand 0b0000000100001110#16 = .command (.construct .encrypt true true true) := by
  decide
theorem test_decode_construct_all_null :
    decodeCommand 0b0000000100000001#16 = .command (.construct .decrypt false false false) := by decide
theorem test_decode_construct_reserved : decodeCommand 0x0110#16 = .illegal (.reservedImmediate 0x01#8 0x10#8) := by decide
theorem test_decode_ldiv : decodeCommand 0b0000001000001000#16 = .command (.ldiv true) := by decide
theorem test_decode_ldiv_reserved : decodeCommand 0x0204#16 = .illegal (.reservedImmediate 0x02#8 0x04#8) := by decide
theorem test_decode_byte : decodeCommand 0b0000001111111111#16 = .command (.byte 0xFF#8) := by decide
theorem test_decode_proc : decodeCommand 0b0000010000000000#16 = .command .proc := by decide
theorem test_decode_proc_reserved : decodeCommand 0x0401#16 = .illegal (.reservedImmediate 0x04#8 0x01#8) := by decide
theorem test_decode_undefined : decodeCommand 0x0500#16 = .illegal (.undefinedOpcode 0x05#8) := by decide
theorem test_decode_micro : decodeMicro 1#1 = .bitstepRed ∧ decodeMicro 0#1 = .bitstepBlue := by decide
theorem test_encode_byte : encode (.byte 0x35#8) = .formatC 0x0335#16 := by decide
theorem test_encode_construct : encode (.construct .decrypt true true true) = .formatC 0x010F#16 := by decide
theorem test_tableWord :
    decodeTableWord 16 0x0100 = some (.construct .encrypt false false false) ∧
    decodeTableWord 16 0x0200 = some (.ldiv false) ∧ decodeTableWord 16 0x0300 = some (.byte 0) ∧
    decodeTableWord 16 0x0400 = some .proc ∧ decodeTableWord 8 1 = some .bitstepRed ∧
    decodeTableWord 8 0 = some .bitstepBlue ∧ decodeTableWord 16 0x0401 = none := by decide
/-- The very next step runs the placed word: `NotConstructed` for `BYTE` after reset, a bit-step for a micro-operation. -/
theorem test_withFetchWord :
    shows (step (State.reset.withFetchWord 16 0x0300)) = some (none, some ⟨.notConstructed, none⟩) ∧
    shows (step (State.reset.withFetchWord 8 1)) = some (some [true], none) := by decide

/-! ### One step of each instruction -/

/-- V12 row 1. -/
theorem test_construct_ok :
    shows (exec (.construct .encrypt true true true) (State.on State.reset (withKeyIv k4 iv4))) =
      some (some [true, false, false, true], some ⟨.ok, none⟩) := by decide
/-- V12: `CONSTRUCT null, K4, IV5` reports the null argument before the sizes. -/
theorem test_construct_null_before_size :
    shows (exec (.construct .encrypt false true true) (State.on State.reset (withKeyIv k4 iv5))) =
      some (none, some ⟨.nullArgument, none⟩) := by decide
/-- V13 row 1. -/
theorem test_ldiv_ok :
    shows (exec (.ldiv true) (State.on (ready4 .encrypt (bits4 false true true false)) (withKeyIv k4 iv4))) =
      some (some [true, false, false, true], some ⟨.ok, none⟩) := by decide
/-- V13 row 3. -/
theorem test_ldiv_mismatch :
    shows (exec (.ldiv true) (State.on (ready4 .encrypt (bits4 false true true false)) (withKeyIv k4 iv5))) =
      some (some [false, true, true, false], some ⟨.sizeMismatch, none⟩) := by decide
/-- V4. -/
theorem test_byte_encrypt :
    shows (exec (.byte 0x35#8) (ready4 .encrypt (bits4 true false false true))) =
      some (some [false, true, true, false], some ⟨.ok, some (.byte 0x3E#8)⟩) := by decide
/-- V5. -/
theorem test_byte_decrypt :
    shows (exec (.byte 0x3E#8) (ready4 .decrypt (bits4 true false false true))) =
      some (some [false, true, true, false], some ⟨.ok, some (.byte 0x35#8)⟩) := by decide
/-- V6. -/
theorem test_proc_three_zero_bytes :
    shows (exec .proc (State.on (ready8 .encrypt iv8) (withDesc [0, 0, 0] 0 3))) =
      some (some [true, false, true, false, false, false, true, false],
        some ⟨.ok, some (.out [0x24#8, 0x49#8, 0x92#8])⟩) := by decide +kernel
/-- V11: the exact sum is not wrapped. -/
theorem test_proc_sum_is_exact :
    shows (exec .proc (State.on (ready4 .encrypt (bits4 true false false true)) (withDesc [0, 0, 0, 0] 0x7FFFFFFF 1))) =
      some (some [true, false, false, true], some ⟨.boundsError, none⟩) := by decide
/-- V1 row 2, and V2: not the in-place result `[1,0,0,1]`. -/
theorem test_bitstepRed :
    shows (exec .bitstepRed (ready4 .encrypt (bits4 false true false true))) =
      some (some [true, false, false, false], none) := by decide
/-- V1 row 7. -/
theorem test_bitstepBlue :
    shows (exec .bitstepBlue (ready8 .encrypt iv8)) =
      some (some [false, true, false, false, true, true, true, false], none) := by decide

/-! ### A script (30_encoding.md R66, R67; the words of 95_test_vectors.md P1 to P3) -/

def sampleScript : List Char :=
  "key K = ".toList ++ ['\x7b'] ++ " n = 2, RP = [1,0],\n BP = [0,1], RB = [0,0], BB = [0,1] ".toList ++ ['\x7d'] ++
    "\niv V = [1,0]  ; a seed\nbuf B = [0x61, 115]\n\nDECRYPTOR K, V\nBYTES 0x4E, 97\nPROC B, -1, 1\nRESET null".toList

theorem test_script :
    assembleText sampleScript =
      some [.command 0x010F#16 (withKeyIv ⟨2, [1, 0], [0, 1], [false, false], [false, true]⟩ ⟨[true, false]⟩),
        .command 0x034E#16 Channels.idle, .command 0x0361#16 Channels.idle,
        .command 0x0400#16 (withDesc [0x61#8, 0x73#8] (BitVec.ofInt 32 (-1)) 1), .command 0x0200#16 Channels.idle] := by
  decide

/-! ### Witnesses: a concrete state and operands for the hypotheses of each statement -/

def s4 : State := ready4 .encrypt (bits4 true false false true)

theorem witness_StepRunsTheDecodedCommand :
    (State.facing s4 [.command 0x0335#16 Channels.idle]).stream = .command 0x0335#16 Channels.idle :: [] ∧
    decodeCommand 0x0335#16 = .command (.byte 0x35#8) := by decide
theorem witness_StepRunsTheMicroOperation :
    (State.facing s4 [.micro 1#1]).stream = .micro 1#1 :: [] ∧ (State.facing s4 [.micro 0#1]).stream = .micro 0#1 :: [] := by
  decide
theorem witness_PowerOnResetLeavesNoEngine :
    (State.facing s4 [.powerOn]).stream = .powerOn :: [] ∧ s4.stream = [] := by decide
theorem witness_LifecycleChanges :
    (∃ t, step (State.facing s4 [.powerOn]) = .next t ∧ (State.facing s4 [.powerOn]).life = .ready ∧
      t.life = .unconstructed) ∧
    ∃ t, step (State.facing State.reset [.command 0x010E#16 (withKeyIv k4 iv4)]) = .next t ∧
      (State.facing State.reset [.command 0x010E#16 (withKeyIv k4 iv4)]).life = .unconstructed ∧ t.life = .ready :=
  ⟨⟨_, rfl, rfl, rfl⟩, ⟨_, rfl, rfl, rfl⟩⟩
theorem witness_BoundKeyAndModeNeverChange :
    ∃ t, step (State.facing s4 [.command 0x0335#16 Channels.idle]) = .next t ∧
      (State.facing s4 [.command 0x0335#16 Channels.idle]).engine = some (engine4 .encrypt (bits4 true false false true)) ∧
      ∀ rest, (State.facing s4 [.command 0x0335#16 Channels.idle]).stream ≠ .powerOn :: rest :=
  ⟨_, rfl, rfl, by intro rest h; cases h⟩
/-- Each range of the partition at its ends, and the words just outside. -/
theorem witness_DecodingPartitionsTheWords :
    decodeCommand 0x0100#16 = .command (.construct .encrypt false false false) ∧
    decodeCommand 0x010F#16 = .command (.construct .decrypt true true true) ∧
    decodeCommand 0x0200#16 = .command (.ldiv false) ∧ decodeCommand 0x0208#16 = .command (.ldiv true) ∧
    decodeCommand 0x0300#16 = .command (.byte 0) ∧ decodeCommand 0x03FF#16 = .command (.byte 0xFF#8) ∧
    decodeCommand 0x0400#16 = .command .proc ∧
    [0x00FF#16, 0x0110#16, 0x01FF#16, 0x0201#16, 0x0207#16, 0x0209#16, 0x02FF#16, 0x0401#16, 0xFFFF#16].all
      (fun w => match decodeCommand w with | .command _ => false | .illegal _ => true) = true := by decide
theorem witness_EveryCommandWordSelectsOneRow :
    (⟨"PROC", 0x0400#16, 0xFFFF#16⟩ : OpcodeRow) ∈ opcodeRows := by decide
theorem witness_IllegalWordAnswersIllegalCommand :
    (State.facing s4 [.command 0x0401#16 Channels.idle]).stream = .command 0x0401#16 Channels.idle :: [] ∧
    ∀ r ∈ opcodeRows, r.selects 0x0401#16 = false := by decide
/-- One word and state for each clause of R77, in its order. -/
theorem witness_ConstructWordFollowsItsRule :
    (opField 0x0110#16 = 0x01#8 ∧ (immField 0x0110#16).extractLsb' 4 4 ≠ 0#4) ∧
    (opField 0x010E#16 = 0x01#8 ∧ (immField 0x010E#16).extractLsb' 4 4 = 0#4 ∧ s4.life = .ready) ∧
    (opField 0x0106#16 = 0x01#8 ∧ State.reset.life ≠ .ready ∧ (0x0106#16).getLsbD 3 = false) ∧
    ((0x010E#16).getLsbD 2 = true ∧ (0x010E#16).getLsbD 1 = true ∧ (0x010E#16).getLsbD 3 = true ∧ iv5.size ≠ k4.size) ∧
    (iv4.size = k4.size ∧ k4.WellFormed) ∧
    (State.facing State.reset [.command 0x010E#16 (withKeyIv k4 iv4)]).stream =
      .command 0x010E#16 (withKeyIv k4 iv4) :: [] := by decide
theorem witness_ConstructBindsAndSeeds :
    (State.on State.reset (withKeyIv k4 iv4)).engine = none ∧
    (State.on State.reset (withKeyIv k4 iv4)).channels.key.WellFormed ∧
    (State.on State.reset (withKeyIv k4 iv4)).channels.iv.size = (State.on State.reset (withKeyIv k4 iv4)).channels.key.size := by
  decide
theorem witness_ConstructRefusesAnObjectThatIsNoKey :
    (State.on State.reset (withKeyIv { k4 with rp := [2, 0, 2, 1] } iv4)).engine = none ∧
    iv4.size = { k4 with rp := [2, 0, 2, 1] }.size ∧ ¬ { k4 with rp := [2, 0, 2, 1] }.WellFormed := by decide
/-- One word and state for each clause of R78, in its order. -/
theorem witness_LdivWordFollowsItsRule :
    (opField 0x0210#16 = 0x02#8 ∧ (immField 0x0210#16).extractLsb' 4 4 ≠ 0#4) ∧
    (opField 0x0201#16 = 0x02#8 ∧ (immField 0x0201#16).extractLsb' 0 3 ≠ 0#3) ∧
    (opField 0x0208#16 = 0x02#8 ∧ State.reset.engine = none) ∧
    (s4.engine = some (engine4 .encrypt (bits4 true false false true)) ∧ (0x0200#16).getLsbD 3 = false) ∧
    ((0x0208#16).getLsbD 3 = true ∧ iv5.size ≠ (engine4 .encrypt (bits4 true false false true)).n) ∧
    iv4.size = (engine4 .encrypt (bits4 true false false true)).n ∧
    (State.facing s4 [.command 0x0208#16 (withKeyIv k4 iv4)]).stream = .command 0x0208#16 (withKeyIv k4 iv4) :: [] := by
  decide
theorem witness_LdivSeedsTheRegister :
    (State.on s4 (withKeyIv k4 iv4)).engine = some (engine4 .encrypt (bits4 true false false true)) ∧
    (State.on s4 (withKeyIv k4 iv4)).channels.iv.size = (engine4 .encrypt (bits4 true false false true)).n := by decide
theorem witness_ConstructSeedsAsLdivDoes :
    ∃ t u, (⟨[false, false, false, false]⟩ : IvOperand).size = k4.size ∧
      exec (.construct .encrypt true true true) (State.on State.reset (withKeyIv k4 iv4)) = .next t ∧
      t.responses = ⟨.ok, none⟩ :: State.reset.responses ∧
      exec (.construct .encrypt true true true)
        (State.on State.reset (withKeyIv k4 ⟨[false, false, false, false]⟩)) = .next u :=
  ⟨_, _, rfl, rfl, rfl, rfl⟩
theorem witness_LdivForgetsTheOldRegister :
    ((State.on s4 (withKeyIv k4 iv4)).engine = some (engine4 .encrypt (bits4 true false false true)) ∧
      iv4.size = (engine4 .encrypt (bits4 true false false true)).n) ∧
    bits4 false true true false ≠ bits4 true false false true := by decide
/-- For `BitstepRedGathersThroughTheRedTables`, `BitstepBlueGathersThroughTheBlueTables`,
`PositionZeroHoldsTheLastCiphertextBit`: a constructed engine (in the other mode too). -/
theorem witness_EngineIsConstructed :
    (ready4 .decrypt (bits4 true false false true)).engine = some (engine4 .decrypt (bits4 true false false true)) ∧
    s4.engine = some (engine4 .encrypt (bits4 true false false true)) := by decide
theorem witness_RowZeroOfTheMasksIsNeverRead :
    s4.engine = some (engine4 .encrypt (bits4 true false false true)) ∧ key4' ≠ key4 ∧ ∀ j : Fin 4, 1 ≤ j.val → key4'.rp[j] = key4.rp[j] ∧ key4'.bp[j] = key4.bp[j] ∧
      key4'.rb[j] = key4.rb[j] ∧ key4'.bb[j] = key4.bb[j] := by decide
/-- `RP[0] = 2` and `BP[0] = 1` in `K4`: registers that differ in that cell alone. -/
theorem witness_CellNamedByRowZeroIsDropped :
    s4.engine = some (engine4 .encrypt (bits4 true false false true)) ∧
    (∀ j : Fin 4, j ≠ key4.rp[(0 : Fin 4)] → (bits4 true false true true)[j] = (bits4 true false false true)[j]) ∧
    (∀ j : Fin 4, j ≠ key4.bp[(0 : Fin 4)] → (bits4 true true false true)[j] = (bits4 true false false true)[j]) := by
  decide
/-- Both clauses of `BYTE`: with no engine and with one. -/
theorem witness_ByteRunsEightBitSteps : State.reset.engine = none ∧ s4.engine.isSome = true := by decide
theorem witness_SizeOneHasAClosedForm :
    ({ State.reset with engine := some ⟨1, key1, .encrypt, #v[true]⟩ } : State).engine =
      some ⟨1, key1, .encrypt, #v[true]⟩ := by decide
/-- V3 row 4: the closed form for `n = 1`. -/
theorem test_byte_size_one :
    shows (exec (.byte 0xA5#8) { State.reset with engine := some ⟨1, key1, .encrypt, #v[true]⟩ }) =
      some (some [true], some ⟨.ok, some (.byte 0x9C#8)⟩) := by decide
theorem witness_FirstKeystreamBitIsTheTopIvBit :
    ∃ t, exec (.ldiv true) (State.on s4 (withKeyIv k4 iv4)) = .next t ∧ t.responses = ⟨.ok, none⟩ :: s4.responses :=
  ⟨_, rfl, rfl⟩
/-- V4 and V5: `0x35` encrypts to `0x3E`, `0x3E` decrypts to `0x35`, one ciphertext byte. -/
theorem witness_EqualCiphertextKeepsEnginesInLockStep :
    ∃ t₁ t₂, s4.engine = some (engine4 .encrypt (bits4 true false false true)) ∧
      exec (.byte 0x35#8) s4 = .next t₁ ∧ t₁.responses = ⟨.ok, some (.byte 0x3E#8)⟩ :: s4.responses ∧
      exec (.byte 0x3E#8) (ready4 .decrypt (bits4 true false false true)) = .next t₂ ∧
      t₂.responses = ⟨.ok, some (.byte 0x35#8)⟩ :: s4.responses ∧
      ciphertextByte .encrypt 0x35#8 0x3E#8 = ciphertextByte .decrypt 0x3E#8 0x35#8 :=
  ⟨_, _, rfl, rfl, by decide, rfl, by decide, by decide⟩
/-- The descriptors of V11 at the clauses' boundaries: negative offset, negative length, sum one past the buffer, sum equal to
its length. -/
theorem witness_ProcWordFollowsItsRule :
    (opField 0x0401#16 = 0x04#8 ∧ immField 0x0401#16 ≠ 0#8) ∧
    (opField 0x0400#16 = 0x04#8 ∧ immField 0x0400#16 = 0#8 ∧ State.reset.engine = none ∧ s4.engine.isSome = true) ∧
    (0xFFFFFFFF#32).toInt = -1 ∧ (4#32).toInt + (1#32).toInt > (([0, 0, 0, 0] : List Byte).length : Int) ∧
    ¬ ((4#32).toInt + (0#32).toInt > (([0, 0, 0, 0] : List Byte).length : Int)) ∧
    (State.facing s4 [.command 0x0400#16 (withDesc [0, 0, 0, 0] 4 0)]).stream =
      .command 0x0400#16 (withDesc [0, 0, 0, 0] 4 0) :: [] := by decide
def procState : State := State.on s4 (withDesc [0, 0, 0] 1 2)
theorem witness_ProcAnswersLengthBytes :
    procState.engine = some (engine4 .encrypt (bits4 true false false true)) ∧
    0 ≤ procState.channels.desc.offset.toInt ∧ 0 ≤ procState.channels.desc.length.toInt ∧
    procState.channels.desc.offset.toInt + procState.channels.desc.length.toInt ≤
      (procState.channels.desc.buf.length : Int) := by decide
/-- The clause `length = 0`, at the end of the buffer (V11 row 3). -/
theorem witness_ProcAnswersLengthBytes_empty :
    (withDesc [0, 0, 0, 0] 4 0).desc.length = 0#32 ∧ 0 ≤ (withDesc [0, 0, 0, 0] 4 0).desc.offset.toInt ∧
    (withDesc [0, 0, 0, 0] 4 0).desc.offset.toInt + (withDesc [0, 0, 0, 0] 4 0).desc.length.toInt ≤
      ((withDesc [0, 0, 0, 0] 4 0).desc.buf.length : Int) := by decide
theorem witness_ProcIsASequenceOfBytes :
    procState.engine = some (engine4 .encrypt (bits4 true false false true)) ∧
    procState.channels.desc.offset.toInt = (1 : Nat) ∧ procState.channels.desc.length.toInt = (2 : Nat) ∧
    1 + 2 ≤ procState.channels.desc.buf.length := by decide
theorem witness_ProcSplitsOverConsecutiveRanges :
    ∃ t out₁, (2#32).toInt = (0#32).toInt + (2#32).toInt ∧ (3#32).toInt = (2#32).toInt + (1#32).toInt ∧ 0 ≤ (1#32).toInt ∧
      (2#32).toInt + (1#32).toInt ≤ (([0x35#8, 0xC0#8, 0] : List Byte).length : Int) ∧
      exec .proc (State.on s4 (withDesc [0x35#8, 0xC0#8, 0] 0 2)) = .next t ∧
      t.responses = ⟨.ok, some (.out out₁)⟩ :: s4.responses :=
  ⟨_, _, by decide, by decide, by decide, by decide, rfl, rfl⟩
/-- The buffers differ at index 0; the range is 1 and 2. -/
theorem witness_ProcReadsOnlyItsRange :
    ([9, 0, 0] : List Byte).length = procState.channels.desc.buf.length ∧
    ∀ a : Nat, procState.channels.desc.offset.toInt ≤ (a : Int) →
      (a : Int) < procState.channels.desc.offset.toInt + procState.channels.desc.length.toInt →
      ([9, 0, 0] : List Byte)[a]? = procState.channels.desc.buf[a]? := by
  refine ⟨rfl, fun a h1 h2 => ?_⟩
  have h3 : procState.channels.desc.offset.toInt = 1 := by decide
  have h4 : procState.channels.desc.length.toInt = 2 := by decide
  have : a = 1 ∨ a = 2 := by omega
  obtain rfl | rfl := this <;> rfl
theorem witness_RoundTrip : k4.WellFormed ∧ iv4.size = k4.size ∧ ([0x35#8, 0xC0#8] : List Byte).length < 2 ^ 31 := by decide
theorem witness_EncryptingTheDecryption :
    s4.engine = some (engine4 .encrypt (bits4 true false false true)) ∧ ([0xDE#8, 0xAD#8] : List Byte).length < 2 ^ 31 := by
  decide
/-- One next state of each shape of `CommandFrame`: a host command and a micro-operation. -/
theorem witness_CommandFrame :
    (next? (exec (.byte 0x35#8) s4)).isSome = true ∧ (next? (exec .bitstepRed s4)).isSome = true := by decide
theorem witness_FaultingCommandChangesNothing :
    ∃ t rs, step (State.facing s4 [.command 0x010E#16 (withKeyIv k4 iv4)]) = .next t ∧
      t.responses = ⟨.alreadyConstructed, none⟩ :: rs ∧ Status.alreadyConstructed ≠ .ok :=
  ⟨_, _, rfl, rfl, by decide⟩
theorem witness_AfterAFaultTheEngineContinues :
    ∃ t u rs, step (State.facing s4 [.command 0x0401#16 Channels.idle, .command 0x0335#16 Channels.idle]) = .next t ∧
      t.responses = ⟨.illegalCommand, none⟩ :: rs ∧ Status.illegalCommand ≠ .ok ∧
      step (State.facing s4 [.command 0x0335#16 Channels.idle]) = .next u :=
  ⟨_, _, _, rfl, rfl, by decide, rfl⟩
theorem witness_CommandsDependOnlyOnEngineAndOperands :
    ∃ t, s4.engine = (State.facing s4 [.powerOn]).engine ∧ s4.channels = (State.facing s4 [.powerOn]).channels ∧
      exec (.byte 0x35#8) s4 = .next t := ⟨_, rfl, rfl, rfl⟩
/-- One fault already received, and a `BYTE` presented. -/
def answeredOnce : State :=
  { State.facing s4 [.command 0x0335#16 Channels.idle] with responses := [⟨.boundsError, none⟩] }
theorem witness_StepKeepsResponsesWellFormed :
    ∃ t, answeredOnce.ResponsesWellFormed ∧ step answeredOnce = .next t := by
  refine ⟨_, fun r h => ?_, rfl⟩
  obtain rfl : r = ⟨.boundsError, none⟩ := by simpa [answeredOnce] using h
  exact ⟨by decide, fun _ => rfl⟩
theorem witness_LaunchedMachineNeverStops :
    (State.facing State.reset [.powerOn, .command 0x010E#16 (withKeyIv k4 iv4)]).Launch := by
  intro i hi
  have h : i = .powerOn ∨ i = .command 0x010E#16 (withKeyIv k4 iv4) := by simpa [State.facing] using hi
  obtain rfl | rfl := h
  · exact ⟨rfl, trivial⟩
  · exact ⟨rfl, fun _ _ _ _ => by decide⟩
theorem witness_IndexWidthIsLeast : 1 ≤ 1 ∧ 1 ≤ 2 ^ 1 := by decide
theorem witness_CreatedKeyAndIvAreAccepted :
    KeyCreates 4 (.made k4) ∧ IvCreates 4 (.made iv4) ∧ State.reset.engine = none ∧
    KeyCreates 0 (.failed .invalidSize) ∧ ¬ KeyCreates 1 (.failed .invalidSize) :=
  ⟨⟨by decide, by decide, by decide, by decide, rfl, rfl⟩, ⟨by decide, by decide⟩, rfl, ⟨by decide, rfl⟩,
    fun h => absurd h.1 (by decide)⟩
theorem witness_PseudoCommandsExpand :
    lookupName [("B".toList, .buf [0x61#8])] "B".toList = some (.buf [0x61#8]) := by decide
/-- Lines of each command that assemble: all operands null, all bound, and `PROC`'s integers at the ends of their range. -/
theorem witness_AssembledLineIsItsCommand :
    (ScriptCommand.construct none none none).OperandsBound [] ∧
    (ScriptCommand.construct (some .encrypt) (some "K".toList) (some "V".toList)).OperandsBound
      [("K".toList, .key k4), ("V".toList, .iv iv4)] ∧
    (ScriptCommand.ldiv (some "V".toList)).OperandsBound [("V".toList, .iv iv4)] ∧
    (ScriptCommand.byte 0x35#8).OperandsBound [] ∧
    (ScriptCommand.proc "B".toList (-(2 ^ 31)) (2 ^ 31 - 1)).OperandsBound [("B".toList, .buf [0x61#8])] ∧
    (assembleLine [("B".toList, .buf [0x61#8])] (.command (.proc "B".toList (-(2 ^ 31)) (2 ^ 31 - 1)))).isSome = true := by
  refine ⟨⟨by simp, by simp⟩, ⟨?_, ?_⟩, ?_, trivial, ⟨⟨_, rfl⟩, by decide⟩, by decide⟩
  · rintro x ⟨⟩
    exact ⟨_, rfl⟩
  · rintro x ⟨⟩
    exact ⟨_, rfl⟩
  · rintro x ⟨⟩
    exact ⟨_, rfl⟩
/-- One past the range: no descriptor shows it, and the line does not assemble (00_scope.md R9). -/
theorem test_proc_integer_out_of_range :
    assembleLine [("B".toList, .buf [0x61#8])] (.command (.proc "B".toList (2 ^ 31) 0)) = none := by decide

end Sys2Proof.Tests
end

section
/-! PROOFS. The width of a permutation entry (00_scope.md R8). -/

namespace Sys2Proof

/-- `IDXW` is the lower adjoint of "positive and wide enough for `n` indices": every fact about it follows from this. -/
theorem Config.idxw_le_iff {n w : Nat} : Config.idxw n ≤ w ↔ 1 ≤ w ∧ n ≤ 2 ^ w := by
  rw [Config.idxw, max_le_iff, Nat.clog_le_iff_le_pow Nat.one_lt_two]

/-- Settles O43: read at `IDXW` itself, the adjunction says that it is wide enough; read at `w`, that it is least. -/
theorem indexWidthIsLeast : Obligations.IndexWidthIsLeast := by
  intro n _
  obtain ⟨hpos, hfits⟩ := Config.idxw_le_iff.1 (le_refl (Config.idxw n))
  exact ⟨hpos, hfits, fun w hw hn => Config.idxw_le_iff.2 ⟨hw, hn⟩⟩

end Sys2Proof
end

section
/-! PROOFS. What one step does with each thing that can be presented (20_memory.md R49, 70_reset_and_hazards.md R137), and
the reset state. -/

namespace Sys2Proof.Machine

variable {s t : State} {rest : List Issue}

/-- With nothing presented a step changes nothing (70_reset_and_hazards.md R125). -/
theorem step_of_stream_nil (h : s.stream = []) : step s = .next s := by
  simp [step, acceptNext, h]

/-- The power-on reset event drops the engine and is taken from the stream (70_reset_and_hazards.md R125). -/
theorem step_of_powerOn (h : s.stream = .powerOn :: rest) :
    step s = .next { s with engine := none, stream := rest } := by
  simp [step, acceptNext, h, accept, State.powerOnReset]

/-- A word that decodes to a command runs as that command, its channels sampled (30_encoding.md R56, R63). -/
theorem step_of_command {w : CommandWord} {ch : Channels} {i : Instr} (h : s.stream = .command w ch :: rest)
    (hw : decodeCommand w = .command i) : step s = exec i { s with channels := ch, stream := rest } := by
  simp [step, acceptNext, h, accept, acceptCommand, hw, State.sample]

/-- A word that matches no row is answered `IllegalCommand` (60_exceptions.md R111). -/
theorem step_of_illegal {w : CommandWord} {ch : Channels} {r : DecodeError} (h : s.stream = .command w ch :: rest)
    (hw : decodeCommand w = .illegal r) :
    step s = .next (State.raise { s with channels := ch, stream := rest } .illegalCommand) := by
  simp [step, acceptNext, h, accept, acceptCommand, hw, State.sample]

/-- A presented micro-operation runs with the channels as they stand (30_encoding.md R57). -/
theorem step_of_micro {u : MicroWord} (h : s.stream = .micro u :: rest) :
    step s = exec (decodeMicro u) { s with stream := rest } := by
  simp [step, acceptNext, h, accept]

/-- The sequencer's words decode to no command of the host (30_encoding.md R57). -/
@[simp] theorem decodeMicro_fromHost (u : MicroWord) : (decodeMicro u).fromHost = false := by
  unfold decodeMicro; split <;> rfl

/-- Everything a step that answers can have done. -/
theorem step_next_cases (h : step s = .next t) :
    (s.stream = [] ∧ t = s) ∨
    (∃ rest, s.stream = .powerOn :: rest ∧ t = { s with engine := none, stream := rest }) ∨
    (∃ w ch rest r, s.stream = .command w ch :: rest ∧ decodeCommand w = .illegal r ∧
      t = State.raise { s with channels := ch, stream := rest } .illegalCommand) ∨
    (∃ w ch rest i, s.stream = .command w ch :: rest ∧ decodeCommand w = .command i ∧
      exec i { s with channels := ch, stream := rest } = .next t) ∨
    ∃ u rest, s.stream = .micro u :: rest ∧ exec (decodeMicro u) { s with stream := rest } = .next t := by
  match hs : s.stream with
  | [] =>
    rw [step_of_stream_nil hs] at h
    cases h
    exact .inl ⟨rfl, rfl⟩
  | .powerOn :: rest =>
    rw [step_of_powerOn hs] at h
    cases h
    exact .inr (.inl ⟨rest, rfl, rfl⟩)
  | .command w ch :: rest =>
    cases hw : decodeCommand w with
    | illegal r =>
      rw [step_of_illegal hs hw] at h
      cases h
      exact .inr (.inr (.inl ⟨w, ch, rest, r, rfl, hw, rfl⟩))
    | command i =>
      rw [step_of_command hs hw] at h
      exact .inr (.inr (.inr (.inl ⟨w, ch, rest, i, rfl, hw, h⟩)))
  | .micro u :: rest =>
    rw [step_of_micro hs] at h
    exact .inr (.inr (.inr (.inr ⟨u, rest, rfl, h⟩)))

/-- Settles O3: the reset state by its definition, the two steps by what a step does with an empty stream and with the
power-on reset. -/
theorem powerOnResetLeavesNoEngine : Obligations.PowerOnResetLeavesNoEngine :=
  ⟨rfl, (State.life_unconstructed_iff _).mpr rfl, fun _ _ h => step_of_powerOn h, fun _ h => step_of_stream_nil h⟩

/-- Settles O41: at reset there is neither a response nor a presented item to check. -/
theorem resetMeetsTheInvariants : Obligations.ResetMeetsTheInvariants :=
  ⟨fun _ hr => absurd hr List.not_mem_nil, fun _ hi => absurd hi List.not_mem_nil⟩

end Sys2Proof.Machine
end

section
/-! PROOFS. What an instruction does to a constructed engine and where there is none, and from that the frame of every
instruction (10_state.md R26, R27) and the lifetime of an engine (10_state.md R20, R28). -/

namespace Sys2Proof.Machine

variable {n : Nat} {s t : State} {i : Instr}

/-- The register an instruction leaves in a constructed engine with the given Key, `MODE` and register, and its response where
it gives one, the operands being on the given channels. -/
def reaction (k : Key n) (m : Mode) (reg : Vector Bool n) (ch : Channels) : Instr → Vector Bool n × Option Response
  | .construct _ _ _ _ => (reg, some ⟨.alreadyConstructed, none⟩)
  | .ldiv false => (reg, some ⟨.nullArgument, none⟩)
  | .ldiv true =>
    match seedRegister n ch.iv with
    | none => (reg, some ⟨.sizeMismatch, none⟩)
    | some new => (new, some ⟨.ok, none⟩)
  | .byte b =>
    let x := byteStep Config.feedback m k reg b
    (x.1, some ⟨.ok, some (.byte x.2)⟩)
  | .proc =>
    if descInBounds ch.desc then
      let x := byteSteps Config.feedback m k reg (descBytes ch.desc)
      (x.1, some ⟨.ok, some (.out x.2)⟩)
    else (reg, some ⟨.boundsError, none⟩)
  | .bitstepRed => (bitStep k true reg, none)
  | .bitstepBlue => (bitStep k false reg, none)

/-- On a constructed engine every instruction answers, and `reaction` is all it does: `n`, the Key, `MODE`, the channels and
the stream stay. -/
theorem exec_of_engine {e : Engine} (he : s.engine = some e) (i : Instr) :
    exec i s = .next { s with
      engine := some { e with reg := (reaction e.key e.mode e.reg s.channels i).1 }
      responses := (reaction e.key e.mode e.reg s.channels i).2.toList ++ s.responses } := by
  obtain ⟨_, ch, st, rs⟩ := s
  cases he
  cases i with
  | construct mode mp kp ip => rfl
  | ldiv ip =>
    cases ip with
    | false => rfl
    | true =>
      cases hseed : seedRegister e.n ch.iv with
      | none => simp [exec, execLdiv, reaction, hseed, State.raise, State.respond]
      | some new =>
        simp only [reaction, hseed]
        exact execLdiv_seeds (s := ⟨some e, ch, st, rs⟩) rfl hseed
  | byte b => rfl
  | proc =>
    cases hb : descInBounds ch.desc with
    | false => simp [exec, execProc, reaction, hb, State.raise, State.respond]
    | true =>
      simp only [reaction, hb, if_true]
      exact execProc_ready (s := ⟨some e, ch, st, rs⟩) rfl hb
  | bitstepRed => rfl
  | bitstepBlue => rfl

/-- With no engine every instruction but `CONSTRUCT` is answered `NotConstructed`, or refused where no host issues it
(60_exceptions.md R112, 30_encoding.md R57). -/
theorem exec_without_engine (he : s.engine = none) (i : Instr) :
    (∃ mode mp kp ip, i = .construct mode mp kp ip) ∨
    exec i s = if i.fromHost then .next (s.raise .notConstructed) else .refused .bitstepWithoutEngine := by
  cases i with
  | construct mode mp kp ip => exact .inl ⟨mode, mp, kp, ip, rfl⟩
  | ldiv ip => exact .inr (by simp [exec, execLdiv, he, Instr.fromHost])
  | byte b => exact .inr (by simp [exec, execByte, he, Instr.fromHost])
  | proc => exact .inr (by simp [exec, execProc, he, Instr.fromHost])
  | bitstepRed => exact .inr (by simp [exec, execBitstepRed, he, Instr.fromHost])
  | bitstepBlue => exact .inr (by simp [exec, execBitstepBlue, he, Instr.fromHost])

/-- An instruction keeps `n`, the Key and `MODE` of the engine it finds (10_state.md R26, R27). -/
theorem exec_keeps_binding {e : Engine} (h : exec i s = .next t) (he : s.engine = some e) :
    ∃ reg : Vector Bool e.n, t.engine = some { e with reg := reg } := by
  rw [exec_of_engine he] at h
  cases h
  exact ⟨_, rfl⟩

/-- Only a `CONSTRUCT` with all arguments present brings an engine where there was none, and it answers `OK`
(41_construct_reset.md R77, R83). -/
theorem exec_brings_engine (h : exec i s = .next t) (hs : s.engine = none) (ht : t.engine ≠ none) :
    ∃ mode, i = .construct mode true true true ∧ t.responses = ⟨.ok, none⟩ :: s.responses := by
  obtain ⟨mode, mp, kp, ip, rfl⟩ | hi := exec_without_engine hs i
  · obtain ⟨f, -, rfl⟩ | ⟨-, rfl, rfl, rfl, key, reg, -, -, rfl⟩ := execConstruct_next h
    · exact absurd hs ht
    · exact ⟨mode, rfl, rfl⟩
  · rw [hi] at h
    split at h
    · cases h
      exact absurd hs ht
    · cases h

/-- A step that is no power-on reset keeps `n`, the Key and `MODE` of the engine it finds (10_state.md R20). -/
theorem step_keeps_binding {e : Engine} (h : step s = .next t) (he : s.engine = some e)
    (hp : ∀ rest, s.stream ≠ .powerOn :: rest) : ∃ reg : Vector Bool e.n, t.engine = some { e with reg := reg } := by
  obtain ⟨-, rfl⟩ | ⟨rest, hs, -⟩ | ⟨w, ch, rest, r, -, -, rfl⟩ | ⟨w, ch, rest, i, -, -, hi⟩ | ⟨u, rest, -, hi⟩ :=
    step_next_cases h
  · exact ⟨e.reg, he⟩
  · exact absurd hs (hp rest)
  · exact ⟨e.reg, he⟩
  · exact exec_keeps_binding hi he
  · exact exec_keeps_binding hi he

/-- A step brings an engine where there was none only by a `CONSTRUCT` word that answers `OK` (10_state.md R28). -/
theorem step_brings_engine (h : step s = .next t) (hs : s.engine = none) (ht : t.engine ≠ none) :
    ∃ w ch rest mode, s.stream = .command w ch :: rest ∧
      decodeCommand w = .command (.construct mode true true true) ∧ t.responses = ⟨.ok, none⟩ :: s.responses := by
  obtain ⟨-, rfl⟩ | ⟨rest, -, rfl⟩ | ⟨w, ch, rest, r, -, -, rfl⟩ | ⟨w, ch, rest, i, hst, hw, hi⟩ | ⟨u, rest, -, hi⟩ :=
    step_next_cases h
  · exact absurd hs ht
  · exact absurd rfl ht
  · exact absurd hs ht
  · obtain ⟨mode, rfl, hr⟩ := exec_brings_engine hi hs ht
    exact ⟨w, ch, rest, mode, hst, hw, hr⟩
  · obtain ⟨mode, hu, -⟩ := exec_brings_engine hi hs ht
    have hhost := decodeMicro_fromHost u
    rw [hu] at hhost
    cases hhost

/-- Settles O35: the interface by the three shapes of a next state, the binding by `exec_keeps_binding`. -/
theorem commandFrame : Obligations.CommandFrame := by
  intro i s t h
  have hkeep := fun e => exec_keeps_binding (e := e) h
  obtain ⟨hi, f, -, rfl⟩ | ⟨hi, e, v, rfl⟩ | ⟨hi, e, c, -, rfl⟩ := exec_next_cases h <;>
    exact ⟨rfl, rfl, by simp [hi], hkeep⟩

/-- Settles O5: with the power-on reset excluded, no case of a step replaces the binding. -/
theorem boundKeyAndModeNeverChange : Obligations.BoundKeyAndModeNeverChange :=
  fun _ _ _ h he hp => step_keeps_binding h he hp

/-- Settles O4: a step that is no power-on reset keeps an engine, and one that brings an engine is a `CONSTRUCT`. -/
theorem lifecycleChangesOnlyByResetAndConstruct : Obligations.LifecycleChangesOnlyByResetAndConstruct := by
  intro s t h
  simp only [State.life_ready_iff, State.life_unconstructed_iff]
  constructor
  · intro hs ht
    obtain ⟨e, he⟩ := Option.isSome_iff_exists.mp hs
    by_contra hp
    obtain ⟨reg, hreg⟩ := step_keeps_binding h he (not_exists.mp hp)
    simp [hreg] at ht
  · intro hs ht
    exact step_brings_engine h hs (Option.isSome_iff_ne_none.mp ht)

/-- Settles O13: the object binds to no Key, every earlier test passes, and the last match has no other answer. -/
theorem constructRefusesAnObjectThatIsNoKey : Obligations.ConstructRefusesAnObjectThatIsNoKey := by
  intro s mode he hsize hkey
  have hbind : bindKey s.channels.key = none := by
    rwa [← bindKey_isSome_iff, Option.not_isSome_iff_eq_none] at hkey
  simp [exec, execConstruct, he, hsize, hbind]

end Sys2Proof.Machine
end

section
/-! PROOFS. Which rows of a Key and which cells of the register a bit-step reads (10_state.md R30, R32). -/

namespace Sys2Proof.Machine

variable {n : Nat}

/-- A table that lists every index once sends no two rows to one index. -/
theorem EachOnce.injective {t : Vector (Fin n) n} (h : EachOnce t) : Function.Injective fun i : Fin n => t[i] := by
  have hnodup : t.toList.Nodup := List.nodup_iff_count_le_one.mpr fun x => (h x).le
  intro i j hij
  exact Fin.ext ((hnodup.getElem_inj_iff (hi := by simp) (hj := by simp)).mp (by simpa using hij))

/-- Settles O44: each table is injective, so on a finite set it is bijective. -/
theorem boundPermutationsAreBijections : Obligations.BoundPermutationsAreBijections :=
  fun _ k => ⟨Finite.injective_iff_bijective.mp (EachOnce.injective k.rpOnce),
    Finite.injective_iff_bijective.mp (EachOnce.injective k.bpOnce)⟩

/-- The permutation that either control bit selects is injective (10_state.md R30). -/
theorem Key.permutation_injective (k : Key n) (c : Bool) :
    Function.Injective fun i : Fin n => (k.permutation c)[i] := by
  cases c with
  | false => exact EachOnce.injective k.bpOnce
  | true => exact EachOnce.injective k.rpOnce

/-- Two bit-steps under one control bit agree once their lanes `i >= 1` do: lane 0 is the control bit. -/
theorem bitStep_congr {k k' : Key n} {c : Bool} {s s' : Vector Bool n}
    (h : ∀ i : Fin n, 0 < i.val →
      (s[(k.permutation c)[i]] ^^ (k.mask c)[i]) = (s'[(k'.permutation c)[i]] ^^ (k'.mask c)[i])) :
    bitStep k c s = bitStep k' c s' := by
  ext i hi
  obtain rfl | hpos := Nat.eq_zero_or_pos i
  · exact (bitStep_zero k c s).trans (bitStep_zero k' c s').symm
  · calc (bitStep k c s)[i]
        = (s[(k.permutation c)[(⟨i, hi⟩ : Fin n)]] ^^ (k.mask c)[(⟨i, hi⟩ : Fin n)]) := bitStep_lane k c s ⟨i, hi⟩ hpos
      _ = (s'[(k'.permutation c)[(⟨i, hi⟩ : Fin n)]] ^^ (k'.mask c)[(⟨i, hi⟩ : Fin n)]) := h ⟨i, hi⟩ hpos
      _ = (bitStep k' c s')[i] := (bitStep_lane k' c s' ⟨i, hi⟩ hpos).symm

/-- The cell that row 0 of the selected permutation names has no influence: no other row names it (10_state.md R32). -/
theorem bitStep_drops_row_zero_cell (k : Key n) (c : Bool) {s s' : Vector Bool n}
    (h : ∀ j : Fin n, j ≠ (k.permutation c)[(⟨0, k.pos⟩ : Fin n)] → s'[j] = s[j]) : bitStep k c s' = bitStep k c s := by
  refine bitStep_congr fun i hi => ?_
  have hne : (k.permutation c)[i] ≠ (k.permutation c)[(⟨0, k.pos⟩ : Fin n)] := fun heq =>
    hi.ne' (congrArg Fin.val (k.permutation_injective c heq))
  rw [h _ hne]

/-- Settles O21: both registers make the same bit-step, whichever colour. -/
theorem cellNamedByRowZeroIsDropped : Obligations.CellNamedByRowZeroIsDropped := by
  intro s e other he
  refine ⟨fun h => ?_, fun h => ?_⟩
  · have hstep := bitStep_drops_row_zero_cell e.key true h
    exact ⟨_, exec_of_engine he _, by rw [exec_of_engine rfl]; simp only [reaction, hstep]⟩
  · have hstep := bitStep_drops_row_zero_cell e.key false h
    exact ⟨_, exec_of_engine he _, by rw [exec_of_engine rfl]; simp only [reaction, hstep]⟩

/-- The two Keys have the same rows `1..n-1` in all four tables. -/
def Key.AgreePastRowZero (k k' : Key n) : Prop :=
  ∀ j : Fin n, 1 ≤ j.val → k'.rp[j] = k.rp[j] ∧ k'.bp[j] = k.bp[j] ∧ k'.rb[j] = k.rb[j] ∧ k'.bb[j] = k.bb[j]

/-- A bit-step reads the rows `1..n-1` only (10_state.md R32). -/
theorem Key.AgreePastRowZero.bitStep_eq {k k' : Key n} (h : k.AgreePastRowZero k') : bitStep k' = bitStep k := by
  funext c s
  refine bitStep_congr fun i hi => ?_
  obtain ⟨hrp, hbp, hrb, hbb⟩ := h i hi
  cases c with
  | false => simp only [Key.permutation_blue, Key.mask_blue, hbp, hbb]
  | true => simp only [Key.permutation_red, Key.mask_red, hrp, hrb]

/-- A byte-step reads the Key through its bit-steps only (42_bit_transition.md R93). -/
theorem byteStep_eq_of_bitStep_eq {k k' : Key n} (h : bitStep k' = bitStep k) (f : Feedback) (m : Mode) :
    byteStep f m k' = byteStep f m k := by
  have hiter : bitIteration f m k' = bitIteration f m k := by
    funext b x j
    simp only [bitIteration, h, topCell]
  funext s b
  simp only [byteStep, hiter]

/-- A process operation reads the Key through its bit-steps only (42_bit_transition.md R95). -/
theorem byteSteps_eq_of_bitStep_eq {k k' : Key n} (h : bitStep k' = bitStep k) (f : Feedback) (m : Mode) :
    byteSteps f m k' = byteSteps f m k := by
  funext s bs
  induction bs generalizing s with
  | nil => rfl
  | cons b bs ih => simp only [byteSteps_cons, byteStep_eq_of_bitStep_eq h, ih]

/-- Every instruction reads the Key of a constructed engine through its bit-steps only. -/
theorem reaction_eq_of_bitStep_eq {k k' : Key n} (h : bitStep k' = bitStep k) (m : Mode) (reg : Vector Bool n)
    (ch : Channels) (i : Instr) : reaction k' m reg ch i = reaction k m reg ch i := by
  cases i with
  | construct mode mp kp ip => rfl
  | ldiv ip => cases ip <;> rfl
  | byte b => simp only [reaction, byteStep_eq_of_bitStep_eq h]
  | proc => simp only [reaction, byteSteps_eq_of_bitStep_eq h]
  | bitstepRed => simp only [reaction, h]
  | bitstepBlue => simp only [reaction, h]

/-- Settles O20: the two Keys make the same bit-steps, and an instruction reads no more of a Key than that. -/
theorem rowZeroOfTheMasksIsNeverRead : Obligations.RowZeroOfTheMasksIsNeverRead := by
  intro s e key i he hrows
  have hagree : e.key.AgreePastRowZero key := hrows
  refine ⟨_, _, exec_of_engine he i, ?_⟩
  rw [exec_of_engine rfl]
  simp only [reaction_eq_of_bitStep_eq hagree.bitStep_eq]

end Sys2Proof.Machine
end

section
/-! PROOFS. How a command word divides into the pattern of its row and the bits its mask leaves free (30_encoding.md
section 2), and from that decoding as the inverse of encoding (R57 to R63). -/

namespace Sys2Proof

variable {w : CommandWord}

/-- A word is its pattern with the bits that the mask leaves free put in. -/
theorem pattern_or_free_bits {p mask free : CommandWord} (h : w &&& mask = p)
    (hfree : mask ||| free = BitVec.allOnes 16) : p ||| (w &&& free) = w := by
  rw [← h, ← BitVec.and_or_distrib_left, hfree, BitVec.and_allOnes]

/-- A word that one row selects is selected by no row whose pattern differs under both masks (30_encoding.md R63). -/
theorem not_selected_twice {mask p mask' p' : CommandWord} (h : w &&& mask = p)
    (hne : mask &&& mask' &&& p ≠ mask &&& mask' &&& p') : w &&& mask' ≠ p' := by
  rintro rfl
  subst h
  exact hne (by ac_rfl)

theorem decodeCommand_construct (h : w &&& 0xFFF0#16 = 0x0100#16) :
    decodeCommand w =
      .command (.construct (Mode.ofBit (w.getLsbD 0)) (w.getLsbD 1) (w.getLsbD 2) (w.getLsbD 3)) :=
  if_pos h

theorem decodeCommand_ldiv (h : w &&& 0xFFF7#16 = 0x0200#16) : decodeCommand w = .command (.ldiv (w.getLsbD 3)) := by
  rw [decodeCommand, if_neg (not_selected_twice h (by decide)), if_pos h]

theorem decodeCommand_byte (h : w &&& 0xFF00#16 = 0x0300#16) : decodeCommand w = .command (.byte (immField w)) := by
  rw [decodeCommand, if_neg (not_selected_twice h (by decide)), if_neg (not_selected_twice h (by decide)), if_pos h]

theorem decodeCommand_proc (h : w &&& 0xFFFF#16 = 0x0400#16) : decodeCommand w = .command .proc := by
  rw [decodeCommand, if_neg (not_selected_twice h (by decide)), if_neg (not_selected_twice h (by decide)),
    if_neg (not_selected_twice h (by decide)), if_pos h]

/-- A bit read from a word and put back in its place. -/
theorem flagBit_getLsbD (w : CommandWord) (k : Nat) : flagBit (w.getLsbD k) k = w &&& BitVec.twoPow 16 k := by
  rw [BitVec.and_twoPow]
  rfl

/-- The four flags of `CONSTRUCT`, read from a word and put back, are its low four bits (30_encoding.md R58). -/
theorem encode_construct_getLsbD (w : CommandWord) :
    encode (.construct (Mode.ofBit (w.getLsbD 0)) (w.getLsbD 1) (w.getLsbD 2) (w.getLsbD 3)) =
      .formatC (0x0100#16 ||| (w &&& 0x000F#16)) := by
  simp only [encode, Mode.toBit_ofBit, flagBit_getLsbD, BitVec.or_assoc, ← BitVec.and_or_distrib_left]
  rfl

theorem immField_toNat (w : CommandWord) : (immField w).toNat = w.toNat % 256 := by
  simp [immField]

/-- The immediate, put back into a word, is its low byte (30_encoding.md R55). -/
theorem immField_zeroExtend (w : CommandWord) : (immField w).zeroExtend 16 = w &&& 0x00FF#16 := by
  apply BitVec.eq_of_toNat_eq
  have hmask : w.toNat &&& 255 = w.toNat % 256 := Nat.and_two_pow_sub_one_eq_mod w.toNat 8
  rw [BitVec.toNat_setWidth, BitVec.toNat_and, immField_toNat]
  simp only [BitVec.toNat_ofNat, Nat.reducePow, Nat.reduceMod, hmask]
  omega

/-- A word that is a command is the encoding of the command it decodes to (30_encoding.md R58 to R61). -/
theorem encode_of_decodeCommand {i : Instr} (h : decodeCommand w = .command i) : encode i = .formatC w := by
  unfold decodeCommand at h
  split at h
  · next hrow =>
    cases h
    rw [encode_construct_getLsbD, pattern_or_free_bits hrow rfl]
  · split at h
    · next hrow =>
      cases h
      rw [encode, flagBit_getLsbD, pattern_or_free_bits hrow rfl]
    · split at h
      · next hrow =>
        cases h
        rw [encode, immField_zeroExtend, pattern_or_free_bits hrow rfl]
      · split at h
        · next hrow =>
          cases h
          rw [encode, ← hrow]
          exact congrArg _ BitVec.and_allOnes
        · cases h

/-- The two fields of a `BYTE` word do not overlap (30_encoding.md R60). -/
theorem byteWord_toNat (b : Byte) : (0x0300#16 ||| b.zeroExtend 16).toNat = 0x0300 + b.toNat := by
  have hor : 0x0300 ||| b.toNat = 0x0300 + b.toNat := (Nat.two_pow_add_eq_or_of_lt (i := 8) b.isLt 3).symm
  have hb := b.isLt
  rw [BitVec.toNat_or, BitVec.toNat_setWidth, Nat.mod_eq_of_lt (by omega)]
  exact hor

/-- Clearing the low `k` bits rounds a word down to a multiple of `2^k`. -/
theorem and_highMask_toNat (w : CommandWord) (k : Nat) :
    (w &&& BitVec.allOnes 16 <<< k).toNat = w.toNat / 2 ^ k * 2 ^ k := by
  rw [← BitVec.shiftLeft_ushiftRight, BitVec.toNat_shiftLeft, BitVec.toNat_ushiftRight, Nat.shiftRight_eq_div_pow,
    Nat.shiftLeft_eq]
  exact Nat.mod_eq_of_lt (lt_of_le_of_lt (Nat.div_mul_le_self _ _) w.isLt)

/-- The words of `CONSTRUCT` (30_encoding.md R58, R63). -/
theorem constructRow_iff : w &&& 0xFFF0#16 = 0x0100#16 ↔ 0x0100 ≤ w.toNat ∧ w.toNat ≤ 0x010F := by
  have hmask : (w &&& 0xFFF0#16).toNat = w.toNat / 16 * 16 := and_highMask_toNat w 4
  rw [← BitVec.toNat_inj, hmask]
  change w.toNat / 16 * 16 = 256 ↔ _
  omega

/-- The words of `BYTE` (30_encoding.md R60, R63). -/
theorem byteRow_iff : w &&& 0xFF00#16 = 0x0300#16 ↔ 0x0300 ≤ w.toNat ∧ w.toNat ≤ 0x03FF := by
  have hmask : (w &&& 0xFF00#16).toNat = w.toNat / 256 * 256 := and_highMask_toNat w 8
  rw [← BitVec.toNat_inj, hmask]
  change w.toNat / 256 * 256 = 768 ↔ _
  omega

/-- The word of `PROC` (30_encoding.md R61, R63). -/
theorem procRow_iff : w &&& 0xFFFF#16 = 0x0400#16 ↔ w.toNat = 0x0400 := by
  rw [show w &&& 0xFFFF#16 = w from BitVec.and_allOnes, ← BitVec.toNat_inj]
  rfl

/-- The words of `LDIV`: bit 3 is the one its mask leaves free (30_encoding.md R59, R63). -/
theorem ldivRow_iff : w &&& 0xFFF7#16 = 0x0200#16 ↔ w.toNat = 0x0200 ∨ w.toNat = 0x0208 := by
  constructor
  · intro hrow
    have hword : 0x0200#16 ||| flagBit (w.getLsbD 3) 3 = w := by
      rw [flagBit_getLsbD, pattern_or_free_bits hrow rfl]
    rw [← hword]
    cases w.getLsbD 3 <;> decide
  · rintro (h | h)
    · rw [BitVec.eq_of_toNat_eq (y := 0x0200#16) h]
      rfl
    · rw [BitVec.eq_of_toNat_eq (y := 0x0208#16) h]
      rfl

/-- Decoding the encoding of a host command gives it back (30_encoding.md R58 to R61). -/
theorem decodeCommand_of_encode {i : Instr} (h : encode i = .formatC w) : decodeCommand w = .command i := by
  cases i with
  | construct mode mp kp ip =>
    cases h
    cases mode <;> cases mp <;> cases kp <;> cases ip <;> rfl
  | ldiv ip =>
    cases h
    cases ip <;> rfl
  | byte b =>
    cases h
    have hw := byteWord_toNat b
    have hb := b.isLt
    have himm : immField (0x0300#16 ||| b.zeroExtend 16) = b := by
      apply BitVec.eq_of_toNat_eq
      rw [immField_toNat, hw]
      omega
    rw [decodeCommand_byte (byteRow_iff.mpr (by omega)), himm]
  | proc =>
    cases h
    rfl
  | bitstepRed => cases h
  | bitstepBlue => cases h

/-- On format C words, decoding and encoding are inverse to one another. -/
theorem decodeCommand_eq_command_iff {i : Instr} : decodeCommand w = .command i ↔ encode i = .formatC w :=
  ⟨encode_of_decodeCommand, decodeCommand_of_encode⟩

/-- The host can issue exactly the instructions with a format C word (30_encoding.md R55, R57). -/
theorem fromHost_iff {i : Instr} : i.fromHost = true ↔ ∃ w, encode i = .formatC w := by
  cases i <;> simp [Instr.fromHost, encode]

/-- Bit 0 of a micro-operation word is the whole word (30_encoding.md R57). -/
theorem decodeMicro_eq (u : MicroWord) : decodeMicro u = if u = 1#1 then .bitstepRed else .bitstepBlue := by
  revert u
  decide

/-- Settles O6: for the host's commands by `decodeCommand_eq_command_iff`, for the micro-operations by their two words. -/
theorem decodeAndEncodeAgree : Obligations.DecodeAndEncodeAgree := by
  refine ⟨fun i => ?_, fun w i h => ?_, fun u => ?_⟩
  · cases hi : encode i with
    | formatC w => exact decodeCommand_of_encode hi
    | formatU u => cases i <;> cases hi <;> rfl
  · have hi := encode_of_decodeCommand h
    exact ⟨hi, fromHost_iff.mpr ⟨w, hi⟩⟩
  · revert u
    decide

/-- The mode numbers (30_encoding.md R62). -/
theorem Mode.ofBit_eq (b : Bool) : Mode.ofBit b = if b then .decrypt else .encrypt := by
  cases b <;> rfl

/-- Settles O7: the ranges are the rows, in the order in which the decoder tries them. -/
theorem decodingPartitionsTheWords : Obligations.DecodingPartitionsTheWords := by
  intro w
  simp only [← constructRow_iff, ← ldivRow_iff, ← procRow_iff, BitVec.testBit_toNat, ← Mode.ofBit_eq]
  split_ifs with hconstruct hldiv hbyte hproc
  · exact decodeCommand_construct hconstruct
  · exact decodeCommand_ldiv hldiv
  · have himm : immField w = BitVec.ofNat 8 (w.toNat - 0x0300) := by
      apply BitVec.eq_of_toNat_eq
      rw [immField_toNat, BitVec.toNat_ofNat]
      omega
    rw [decodeCommand_byte (byteRow_iff.mpr hbyte), himm]
  · exact decodeCommand_proc hproc
  · rw [← byteRow_iff] at hbyte
    exact ⟨rejectWord w, by simp only [decodeCommand, hconstruct, hldiv, hbyte, hproc, if_false]⟩

theorem OpcodeRow.selects_iff {r : OpcodeRow} : r.selects w = true ↔ w &&& r.mask = r.pattern :=
  beq_iff_eq

/-- A word that selects a row decodes to an instruction of that row (30_encoding.md R58 to R61). -/
theorem decodeCommand_of_selects {r : OpcodeRow} (hr : r ∈ opcodeRows) (h : r.selects w = true) :
    ∃ i, decodeCommand w = .command i ∧ i.mnemonic = r.mnemonic := by
  rw [OpcodeRow.selects_iff] at h
  simp only [opcodeRows, List.mem_cons, List.not_mem_nil, or_false] at hr
  obtain rfl | rfl | rfl | rfl := hr
  · exact ⟨_, decodeCommand_construct h, rfl⟩
  · exact ⟨_, decodeCommand_ldiv h, rfl⟩
  · exact ⟨_, decodeCommand_byte h, rfl⟩
  · exact ⟨_, decodeCommand_proc h, rfl⟩

/-- The word of every instruction selects one row, its own (30_encoding.md R57, R63). -/
theorem encode_selects_one_row (i : Instr) : Laws.OneRow.Statement i := by
  cases i with
  | construct mode mp kp ip => exact Laws.OneRow.construct mode mp kp ip
  | ldiv ip => exact Laws.OneRow.ldiv ip
  | byte b => exact Laws.OneRow.byte b
  | proc => exact Laws.OneRow.proc
  | bitstepRed => exact Laws.OneRow.bitstepRed
  | bitstepBlue => exact Laws.OneRow.bitstepBlue

/-- The rows of the opcode table have different mnemonics. -/
theorem opcodeRows_mnemonic_injective : ∀ r ∈ opcodeRows, ∀ r' ∈ opcodeRows, r.mnemonic = r'.mnemonic → r = r' := by
  decide

/-- A word that decodes to an instruction of a row selects that row (30_encoding.md R63). -/
theorem selects_of_decodeCommand {r : OpcodeRow} {i : Instr} (hr : r ∈ opcodeRows) (h : decodeCommand w = .command i)
    (hname : i.mnemonic = r.mnemonic) : r.selects w = true := by
  have hrow := encode_selects_one_row i
  rw [Laws.OneRow.Statement, encode_of_decodeCommand h] at hrow
  have hmem : i.mnemonic ∈ (opcodeRows.filter fun r => r.selects w).map (·.mnemonic) := by simp [hrow.1]
  obtain ⟨r', hr', hname'⟩ := List.mem_map.mp hmem
  obtain ⟨hmem', hsel⟩ := List.mem_filter.mp hr'
  rwa [opcodeRows_mnemonic_injective r hr r' hmem' (hname.symm.trans hname'.symm)]

/-- At most one row selects a word: any two rows' patterns differ under both masks (30_encoding.md R63). -/
theorem selected_rows_length_le_one (w : CommandWord) : (opcodeRows.filter fun r => r.selects w).length ≤ 1 := by
  have hpair : (opcodeRows.filter fun r => r.selects w).Pairwise fun _ _ => False :=
    List.pairwise_filter.mpr (opcodeRows_disjoint.imp fun hne h h' =>
      not_selected_twice (OpcodeRow.selects_iff.mp h) hne (OpcodeRow.selects_iff.mp h'))
  exact Nat.le_of_not_lt fun hlen => List.pairwise_iff_getElem.mp hpair 0 1 (Nat.zero_lt_of_lt hlen) hlen Nat.one_pos

/-- Settles O8: each row's words are those that decode to its instructions, and no two rows share a word. -/
theorem everyCommandWordSelectsOneRow : Obligations.EveryCommandWordSelectsOneRow :=
  fun w => ⟨selected_rows_length_le_one w, fun _ hr =>
    ⟨decodeCommand_of_selects hr, fun ⟨_, hi, hname⟩ => selects_of_decodeCommand hr hi hname⟩⟩

/-- Settles O9: each word evaluated. -/
theorem sampleWordsDecode : Obligations.SampleWordsDecode := by
  unfold Obligations.SampleWordsDecode
  decide

end Sys2Proof
end

section
/-! PROOFS. The form of the responses (30_encoding.md R56, 60_exceptions.md R106), and a step as the run of what its word
decodes to. -/

namespace Sys2Proof.Machine

variable {s t : State}

theorem Response.wellFormed_fault {f : Status} (hf : f ≠ .invalidSize) : (⟨f, none⟩ : Response).WellFormed :=
  ⟨hf, fun _ => rfl⟩

theorem Response.wellFormed_ok (v : Option Result) : (⟨.ok, v⟩ : Response).WellFormed :=
  ⟨nofun, fun h => absurd rfl h⟩

/-- One more well-formed response keeps the responses well-formed. -/
theorem State.ResponsesWellFormed.of_cons {r : Response} (hs : s.ResponsesWellFormed) (hr : r.WellFormed)
    (ht : t.responses = r :: s.responses) : t.ResponsesWellFormed := by
  rw [State.ResponsesWellFormed, ht]
  exact List.forall_mem_cons.mpr ⟨hr, hs⟩

/-- Every instruction keeps the responses well-formed: it raises a fault of the engine, answers `OK` or answers nothing. -/
theorem exec_keeps_responsesWellFormed {i : Instr} (hs : s.ResponsesWellFormed) (h : exec i s = .next t) :
    t.ResponsesWellFormed := by
  obtain ⟨-, f, ⟨-, hf⟩, rfl⟩ | ⟨-, e, v, rfl⟩ | ⟨-, e, c, -, rfl⟩ := exec_next_cases h
  · exact hs.of_cons (Response.wellFormed_fault hf) rfl
  · exact hs.of_cons (Response.wellFormed_ok v) rfl
  · exact hs

/-- Settles O40: `IllegalCommand` is a fault of the engine too, and a wait or a power-on reset answers nothing. -/
theorem stepKeepsResponsesWellFormed : Obligations.StepKeepsResponsesWellFormed := by
  intro s t hs h
  obtain ⟨-, rfl⟩ | ⟨rest, -, rfl⟩ | ⟨w, ch, rest, r, -, -, rfl⟩ | ⟨w, ch, rest, i, -, -, hi⟩ | ⟨u, rest, -, hi⟩ :=
    step_next_cases h
  · exact hs
  · exact hs
  · exact hs.of_cons (Response.wellFormed_fault (f := .illegalCommand) (by decide)) rfl
  · exact exec_keeps_responsesWellFormed (s := { s with channels := ch, stream := rest }) hs hi
  · exact exec_keeps_responsesWellFormed (s := { s with stream := rest }) hs hi

/-- Settles O1: the case of a command word that decodes, among the cases of a step. -/
theorem stepRunsTheDecodedCommand : Obligations.StepRunsTheDecodedCommand :=
  fun _ _ _ _ _ h hw => step_of_command h hw

/-- Settles O2: the word decodes to the micro-operation it names. -/
theorem stepRunsTheMicroOperation : Obligations.StepRunsTheMicroOperation := by
  intro s u rest h
  rw [step_of_micro h, decodeMicro_eq]

end Sys2Proof.Machine
end

section
/-! PROOFS. What the assembler yields for a line: the command word and the channels (30_encoding.md R66), and the
expansions of the pseudo-commands (R67). -/

namespace Sys2Proof.Machine

variable {env : Bindings} {x : Name} {i : Instr} {ch : Channels} {item : Issue}

/-- A host instruction is presented as the word that decodes to it (30_encoding.md R55). -/
theorem presentCommand_eq_some_iff :
    presentCommand i ch = some item ↔ ∃ w, decodeCommand w = .command i ∧ item = .command w ch := by
  simp only [decodeCommand_eq_command_iff]
  rw [presentCommand]
  cases encode i <;> simp [eq_comm]

/-- Every host instruction can be presented. -/
theorem presentCommand_of_fromHost (h : i.fromHost = true) (ch : Channels) : ∃ item, presentCommand i ch = some item := by
  obtain ⟨w, hw⟩ := fromHost_iff.mp h
  exact ⟨_, presentCommand_eq_some_iff.mpr ⟨w, decodeCommand_of_encode hw, rfl⟩⟩

theorem keyOfName_some_iff {k : KeyOperand} : keyOfName env (some x) = some k ↔ lookupName env x = some (.key k) := by
  rw [keyOfName]
  split <;> simp_all

theorem ivOfName_some_iff {v : IvOperand} : ivOfName env (some x) = some v ↔ lookupName env x = some (.iv v) := by
  rw [ivOfName]
  split <;> simp_all

theorem bufOfName_eq_some_iff {b : List Byte} : bufOfName env x = some b ↔ lookupName env x = some (.buf b) := by
  rw [bufOfName]
  split <;> simp_all

/-- An integer that `LENW` bits can hold becomes a descriptor integer (30_encoding.md R61). -/
theorem descInteger_of_mem {z : Int} (h : -(2 ^ 31) ≤ z ∧ z < 2 ^ 31) : descInteger z = some (BitVec.ofInt 32 z) :=
  if_pos h

/-- A descriptor integer is the written one in two's complement (30_encoding.md R61). -/
theorem descInteger_toInt {z : Int} {d : DescWord} (h : descInteger z = some d) : d.toInt = z := by
  unfold descInteger at h
  split at h
  · next hz =>
    cases h
    exact BitVec.toInt_ofInt_eq_self (by decide) hz.1 hz.2
  · cases h

/-- A command line is one item of the stream (30_encoding.md R66). -/
theorem assembleLine_command (env : Bindings) (c : ScriptCommand) :
    assembleLine env (.command c) = (assembleCommand env c).map fun item => [item] := by
  simp only [assembleLine, expandLine, assembleAll]
  cases assembleCommand env c <;> rfl

/-- A `CONSTRUCT` line assembles through its two names. -/
theorem assembleCommand_construct_eq_some_iff {mode : Option Mode} {key iv : Option Name} :
    assembleCommand env (.construct mode key iv) = some item ↔
      ∃ k v, keyOfName env key = some k ∧ ivOfName env iv = some v ∧
        presentCommand (.construct (mode.getD .encrypt) mode.isSome key.isSome iv.isSome)
          { Channels.idle with key := k, iv := v } = some item := by
  rw [assembleCommand]
  cases keyOfName env key <;> cases ivOfName env iv <;> simp

theorem assembleCommand_byte (env : Bindings) (b : Byte) :
    assembleCommand env (.byte b) = presentCommand (.byte b) Channels.idle := rfl

/-- An `LDIV` line assembles through its name. -/
theorem assembleCommand_ldiv_eq_some_iff {iv : Option Name} :
    assembleCommand env (.ldiv iv) = some item ↔
      ∃ v, ivOfName env iv = some v ∧
        presentCommand (.ldiv iv.isSome) { Channels.idle with iv := v } = some item := by
  rw [assembleCommand]
  cases ivOfName env iv <;> simp

/-- A `PROC` line assembles through its buffer's name and its two integers. -/
theorem assembleCommand_proc_eq_some_iff {offset length : Int} :
    assembleCommand env (.proc x offset length) = some item ↔
      ∃ b o l, bufOfName env x = some b ∧ descInteger offset = some o ∧ descInteger length = some l ∧
        presentCommand .proc { Channels.idle with desc := ⟨b, o, l⟩ } = some item := by
  rw [assembleCommand]
  cases bufOfName env x <;> cases descInteger offset <;> cases descInteger length <;> simp

/-- An operand of `CONSTRUCT` that is `null` or bound to a Key names an object (30_encoding.md R66). -/
theorem keyOfName_of_bound {key : Option Name} (h : ∀ x, key = some x → ∃ k, lookupName env x = some (.key k)) :
    ∃ k, keyOfName env key = some k := by
  cases key with
  | none => exact ⟨_, rfl⟩
  | some x =>
    obtain ⟨k, hk⟩ := h x rfl
    exact ⟨k, keyOfName_some_iff.mpr hk⟩

/-- An operand that is `null` or bound to an IV names an object (30_encoding.md R66). -/
theorem ivOfName_of_bound {iv : Option Name} (h : ∀ x, iv = some x → ∃ v, lookupName env x = some (.iv v)) :
    ∃ v, ivOfName env iv = some v := by
  cases iv with
  | none => exact ⟨_, rfl⟩
  | some x =>
    obtain ⟨v, hv⟩ := h x rfl
    exact ⟨v, ivOfName_some_iff.mpr hv⟩

/-- A command line with bound names and integers of 32 bits assembles (30_encoding.md R61, R66). -/
theorem assembleCommand_of_operandsBound {c : ScriptCommand} (h : c.OperandsBound env) :
    ∃ item, assembleCommand env c = some item := by
  cases c with
  | construct mode key iv =>
    obtain ⟨hkey, hiv⟩ := h
    obtain ⟨k, hk⟩ := keyOfName_of_bound hkey
    obtain ⟨v, hv⟩ := ivOfName_of_bound hiv
    exact (presentCommand_of_fromHost (by rfl) _).imp fun _ hp =>
      assembleCommand_construct_eq_some_iff.mpr ⟨k, v, hk, hv, hp⟩
  | ldiv iv =>
    obtain ⟨v, hv⟩ := ivOfName_of_bound h
    exact (presentCommand_of_fromHost (by rfl) _).imp fun _ hp => assembleCommand_ldiv_eq_some_iff.mpr ⟨v, hv, hp⟩
  | byte b => exact presentCommand_of_fromHost (i := .byte b) rfl _
  | proc x offset length =>
    obtain ⟨⟨b, hb⟩, hoffset, hlength⟩ := h
    exact (presentCommand_of_fromHost (by rfl) _).imp fun _ hp => assembleCommand_proc_eq_some_iff.mpr
      ⟨b, _, _, bufOfName_eq_some_iff.mpr hb, descInteger_of_mem hoffset, descInteger_of_mem hlength, hp⟩

/-- Settles O47: each operand of the line is inverted by its own lemma, the word by `presentCommand_eq_some_iff`. -/
theorem assembledLineIsItsCommand : Obligations.AssembledLineIsItsCommand := by
  intro env c
  simp only [assembleLine_command, Option.map_eq_some_iff]
  constructor
  · intro hbound
    obtain ⟨item, hitem⟩ := assembleCommand_of_operandsBound hbound
    exact ⟨item, item, hitem, rfl⟩
  · rintro is ⟨item, hitem, rfl⟩
    cases c with
    | construct mode key iv =>
      obtain ⟨k, v, hk, hv, hp⟩ := assembleCommand_construct_eq_some_iff.mp hitem
      obtain ⟨w, hw, rfl⟩ := presentCommand_eq_some_iff.mp hp
      refine ⟨w, _, rfl, ⟨_, hw, ?_⟩, ?_, ?_⟩
      · rintro m rfl
        rfl
      · rintro x rfl
        exact keyOfName_some_iff.mp hk
      · rintro x rfl
        exact ivOfName_some_iff.mp hv
    | ldiv iv =>
      obtain ⟨v, hv, hp⟩ := assembleCommand_ldiv_eq_some_iff.mp hitem
      obtain ⟨w, hw, rfl⟩ := presentCommand_eq_some_iff.mp hp
      refine ⟨w, _, rfl, hw, ?_⟩
      rintro x rfl
      exact ivOfName_some_iff.mp hv
    | byte b =>
      obtain ⟨w, hw, rfl⟩ := presentCommand_eq_some_iff.mp ((assembleCommand_byte env b).symm.trans hitem)
      exact ⟨w, _, rfl, hw⟩
    | proc x offset length =>
      obtain ⟨b, o, l, hb, ho, hl, hp⟩ := assembleCommand_proc_eq_some_iff.mp hitem
      obtain ⟨w, hw, rfl⟩ := presentCommand_eq_some_iff.mp hp
      exact ⟨w, _, rfl, hw, bufOfName_eq_some_iff.mp hb, descInteger_toInt ho, descInteger_toInt hl⟩

/-- The `BYTE` lines of a list of bytes assemble to their words in order (30_encoding.md R60, R67). -/
theorem assembleAll_bytes (env : Bindings) (bs : List Byte) :
    assembleAll env (bs.map ScriptCommand.byte) =
      some (bs.map fun c => .command (0x0300#16 ||| c.zeroExtend 16) Channels.idle) := by
  induction bs with
  | nil => rfl
  | cons b bs ih =>
    have hb : assembleCommand env (.byte b) = some (.command (0x0300#16 ||| b.zeroExtend 16) Channels.idle) := rfl
    simp only [List.map_cons, assembleAll, hb, ih]

/-- Settles O46: three expansions hold by definition, `PROCALL` reads its buffer's length, `BYTES` goes byte by byte. -/
theorem pseudoCommandsExpand : Obligations.PseudoCommandsExpand := by
  refine fun env key iv x b bs => ⟨rfl, rfl, rfl, fun hx => ?_, assembleAll_bytes env bs⟩
  simp only [assembleLine, expandLine, bufOfName_eq_some_iff.mpr hx, Option.map_some]

end Sys2Proof.Machine
end

section
/-! PROOFS. What the factories create (40_provisioning.md R70 to R72), and that `CONSTRUCT` accepts it
(41_construct_reset.md R77). -/

namespace Sys2Proof.Machine

/-- A shuffle of the identity sequence is a permutation table (40_provisioning.md R72, 10_state.md R30). -/
theorem permutationTable_of_perm_range {n : Nat} {l : List Nat} (h : l.Perm (List.range n)) : PermutationTable n l := by
  refine ⟨?_, fun x hx => List.mem_range.mp (h.mem_iff.mp hx), fun x hx => ?_⟩
  · rw [h.length_eq, List.length_range]
  · rw [h.count_eq]
    exact List.count_eq_one_of_mem List.nodup_range hx

/-- A created Key has the requested size and is well-formed (40_provisioning.md R70). -/
theorem KeyCreates.size_and_wellFormed {n : Int} {k : KeyOperand} (h : KeyCreates n (.made k)) :
    (k.size : Int) = n ∧ k.WellFormed := by
  obtain ⟨hpos, hsize, hrp, hbp, hrb, hbb⟩ := h
  exact ⟨hsize, by omega, permutationTable_of_perm_range hrp, permutationTable_of_perm_range hbp, hrb, hbb⟩

/-- With no engine, `CONSTRUCT` of a well-formed Key and an IV of its size answers `OK` (41_construct_reset.md R77). -/
theorem exec_construct_of_wellFormed {s : State} (mode : Mode) (he : s.engine = none) (hk : s.channels.key.WellFormed)
    (hsize : s.channels.iv.size = s.channels.key.size) :
    ∃ e, exec (.construct mode true true true) s = .next ((s.setEngine e).respondOk none) := by
  obtain ⟨key, hkey⟩ := Option.isSome_iff_exists.mp ((bindKey_isSome_iff _).mpr hk)
  obtain ⟨reg, hreg⟩ := seedRegister_isSome hsize
  exact ⟨_, execConstruct_binds mode he hkey hreg⟩

/-- The Key that an idle random source yields: no shuffle, masks of zeros. -/
def identityKey (n : Nat) : KeyOperand :=
  ⟨n, List.range n, List.range n, List.replicate n false, List.replicate n false⟩

/-- For every positive size the factory can answer the identity Key (40_provisioning.md R70). -/
theorem keyCreates_identityKey {n : Nat} (h : 0 < n) : KeyCreates n (.made (identityKey n)) :=
  ⟨Int.natCast_pos.mpr h, rfl, .rfl, .rfl, List.length_replicate, List.length_replicate⟩

/-- For every positive size the factory can answer the IV of zeros (40_provisioning.md R71). -/
theorem ivCreates_zeros {n : Nat} (h : 0 < n) : IvCreates n (.made ⟨List.replicate n false⟩) :=
  ⟨Int.natCast_pos.mpr h, congrArg Nat.cast List.length_replicate⟩

/-- A Key can be created exactly for a positive size (40_provisioning.md R70). -/
theorem exists_keyCreates_iff {n : Int} : (∃ k, KeyCreates n (.made k)) ↔ 1 ≤ n := by
  refine ⟨fun ⟨_, hpos, _⟩ => hpos, fun hn => ?_⟩
  lift n to Nat using by omega
  exact ⟨_, keyCreates_identityKey (Int.natCast_pos.mp hn)⟩

/-- An IV can be created exactly for a positive size (40_provisioning.md R71). -/
theorem exists_ivCreates_iff {n : Int} : (∃ v, IvCreates n (.made v)) ↔ 1 ≤ n := by
  refine ⟨fun ⟨_, hpos, _⟩ => hpos, fun hn => ?_⟩
  lift n to Nat using by omega
  exact ⟨_, ivCreates_zeros (Int.natCast_pos.mp hn)⟩

/-- Settles O45: a created Key is well-formed and the created IV has its size; the failing answers are the factories' own. -/
theorem createdKeyAndIvAreAccepted : Obligations.CreatedKeyAndIvAreAccepted := by
  refine ⟨fun n k v s mode hk hv he => ?_, fun n =>
    ⟨exists_keyCreates_iff, exists_ivCreates_iff, fun _ => ⟨Iff.rfl, Iff.rfl⟩⟩⟩
  obtain ⟨hksize, hwf⟩ := hk.size_and_wellFormed
  obtain ⟨-, hvsize⟩ := hv
  have hsize : v.size = k.size := by omega
  exact exec_construct_of_wellFormed (s := { s with channels := { s.channels with key := k, iv := v } }) mode he hwf hsize

end Sys2Proof.Machine
end

section
/-! PROOFS. The reserved bits of the `CONSTRUCT` and `LDIV` words, read from the fields of the word (30_encoding.md R55, R58,
R59, R64). -/

namespace Sys2Proof

variable {w : CommandWord}

theorem opField_toNat (w : CommandWord) : (opField w).toNat = w.toNat / 256 := by
  have hw := w.isLt
  simp only [opField, BitVec.extractLsb'_toNat, Nat.shiftRight_eq_div_pow]
  omega

/-- A word with the opcode `op` lies in the 256 words from `256 * op` on, at its immediate (30_encoding.md R55). -/
theorem toNat_of_opField {op : BitVec 8} (h : opField w = op) : w.toNat = 256 * op.toNat + (immField w).toNat := by
  rw [← h, opField_toNat, immField_toNat]
  omega

theorem extractLsb'_eq_zero_iff (b : BitVec 8) (start len : Nat) :
    b.extractLsb' start len = 0#len ↔ b.toNat / 2 ^ start % 2 ^ len = 0 := by
  rw [← BitVec.toNat_inj, BitVec.extractLsb'_toNat, Nat.shiftRight_eq_div_pow, BitVec.toNat_ofNat, Nat.zero_mod]

/-- A word outside the four ranges is illegal (30_encoding.md R63, R64). -/
theorem decodeCommand_illegal_of_ranges (hconstruct : ¬ (0x0100 ≤ w.toNat ∧ w.toNat ≤ 0x010F))
    (hldiv : ¬ (w.toNat = 0x0200 ∨ w.toNat = 0x0208)) (hbyte : ¬ (0x0300 ≤ w.toNat ∧ w.toNat ≤ 0x03FF))
    (hproc : w.toNat ≠ 0x0400) : ∃ err, decodeCommand w = .illegal err := by
  simpa only [hconstruct, hldiv, hbyte, hproc, if_false] using decodingPartitionsTheWords w

/-- A word with the opcode of `CONSTRUCT` is that command unless the high half of its immediate is not 0
(30_encoding.md R58, R64). -/
theorem decodeCommand_of_constructOpcode (hop : opField w = 0x01#8) :
    if (immField w).extractLsb' 4 4 ≠ 0#4 then ∃ err, decodeCommand w = .illegal err
    else decodeCommand w =
      .command (.construct (Mode.ofBit (w.getLsbD 0)) (w.getLsbD 1) (w.getLsbD 2) (w.getLsbD 3)) := by
  have hw : w.toNat = 256 + (immField w).toNat := toNat_of_opField hop
  have himm := (immField w).isLt
  simp only [ne_eq, extractLsb'_eq_zero_iff, Nat.reducePow]
  split_ifs with hzero
  · exact decodeCommand_construct (constructRow_iff.mpr (by omega))
  · exact decodeCommand_illegal_of_ranges (by omega) (by omega) (by omega) (by omega)

/-- A word with the opcode of `LDIV` is that command unless a bit of its immediate other than bit 3 is set
(30_encoding.md R59, R64). -/
theorem decodeCommand_of_ldivOpcode (hop : opField w = 0x02#8) :
    if (immField w).extractLsb' 4 4 ≠ 0#4 ∨ (immField w).extractLsb' 0 3 ≠ 0#3 then
      ∃ err, decodeCommand w = .illegal err
    else decodeCommand w = .command (.ldiv (w.getLsbD 3)) := by
  have hw : w.toNat = 512 + (immField w).toNat := toNat_of_opField hop
  have himm := (immField w).isLt
  simp only [ne_eq, extractLsb'_eq_zero_iff, Nat.reducePow]
  split_ifs with hreserved
  · exact decodeCommand_illegal_of_ranges (by omega) (by omega) (by omega) (by omega)
  · exact decodeCommand_ldiv (ldivRow_iff.mpr (by omega))

end Sys2Proof
end

section
/-! PROOFS. `CONSTRUCT` and `LDIV`: the answer of each test and the seeding (41_construct_reset.md R77, R78, R80, R81). -/

namespace Sys2Proof.Machine

variable {s : State} {mode : Mode} {mp kp ip : Bool} {e : Engine}

/-- A second `CONSTRUCT` is answered `AlreadyConstructed` (41_construct_reset.md R77). -/
theorem exec_construct_of_ready (h : s.life = .ready) :
    exec (.construct mode mp kp ip) s = .next (s.raise .alreadyConstructed) := by
  obtain ⟨e, he⟩ := Option.isSome_iff_exists.mp ((State.life_ready_iff s).mp h)
  simp [exec, execConstruct, he]

/-- `CONSTRUCT` with an argument absent is answered `NullArgument` (41_construct_reset.md R77). -/
theorem exec_construct_of_null (he : s.engine = none) (h : kp = false ∨ mp = false ∨ ip = false) :
    exec (.construct mode mp kp ip) s = .next (s.raise .nullArgument) := by
  obtain rfl | rfl | rfl := h <;> simp [exec, execConstruct, he]

/-- `CONSTRUCT` with an IV of another size than the Key's is answered `SizeMismatch` (41_construct_reset.md R77). -/
theorem exec_construct_of_mismatch (he : s.engine = none) (h : s.channels.iv.size ≠ s.channels.key.size) :
    exec (.construct mode true true true) s = .next (s.raise .sizeMismatch) := by
  simp [exec, execConstruct, he, h]

/-- `CONSTRUCT` of a well-formed Key and an IV of its size binds the presented tables and seeds the presented bits
(41_construct_reset.md R77). -/
theorem exec_construct_binds_tables (mode : Mode) (he : s.engine = none) (hk : s.channels.key.WellFormed)
    (hsize : s.channels.iv.size = s.channels.key.size) :
    ∃ (key : Key s.channels.key.size) (reg : Vector Bool s.channels.key.size),
      key.rp.toList.map Fin.val = s.channels.key.rp ∧ key.bp.toList.map Fin.val = s.channels.key.bp ∧
      key.rb.toList = s.channels.key.rb ∧ key.bb.toList = s.channels.key.bb ∧ reg.toList = s.channels.iv.bits ∧
      exec (.construct mode true true true) s =
        .next ((s.setEngine ⟨s.channels.key.size, key, mode, reg⟩).respondOk none) := by
  obtain ⟨key, hkey⟩ := Option.isSome_iff_exists.mp ((bindKey_isSome_iff _).mpr hk)
  obtain ⟨reg, hreg⟩ := seedRegister_isSome hsize
  obtain ⟨hrp, hbp, hrb, hbb⟩ := bindKey_tables hkey
  exact ⟨key, reg, hrp, hbp, hrb, hbb, seedRegister_toList hreg, execConstruct_binds mode he hkey hreg⟩

/-- Settles O12: the engine is the one of the bound tables and the seeded bits. -/
theorem constructBindsAndSeeds : Obligations.ConstructBindsAndSeeds := by
  intro s mode he hk hsize
  obtain ⟨key, reg, hrp, hbp, hrb, hbb, hreg, hexec⟩ := exec_construct_binds_tables mode he hk hsize
  exact ⟨_, hexec, rfl, rfl, hreg, hrp, hbp, hrb, hbb⟩

/-- Settles O11: a reserved bit is the decoder's test, and each later test has its lemma about `CONSTRUCT`. -/
theorem constructWordFollowsItsRule : Obligations.ConstructWordFollowsItsRule := by
  intro s w ch rest hs hop
  have hdecode := decodeCommand_of_constructOpcode hop
  have hnone : s.life ≠ .ready → s.engine = none := by simp [State.life_ready_iff]
  simp only [← Mode.ofBit_eq]
  split_ifs at hdecode ⊢ with hreserved hready hnull hsize
  · obtain ⟨err, herr⟩ := hdecode
    exact step_of_illegal hs herr
  · rw [step_of_command hs hdecode]
    exact exec_construct_of_ready hready
  · rw [step_of_command hs hdecode]
    exact exec_construct_of_null (hnone hready) hnull
  all_goals
    obtain ⟨hkp, hmp, hip⟩ : w.getLsbD 2 = true ∧ w.getLsbD 1 = true ∧ w.getLsbD 3 = true := by simpa using hnull
    rw [step_of_command hs hdecode, hkp, hmp, hip]
  · exact exec_construct_of_mismatch (hnone hready) hsize
  · intro hk
    exact exec_construct_binds_tables (s := { s with channels := ch, stream := rest }) _ (hnone hready) hk
      (not_ne_iff.mp hsize)

/-- `LDIV` with no IV is answered `NullArgument` (41_construct_reset.md R78). -/
theorem exec_ldiv_of_null (he : s.engine = some e) : exec (.ldiv false) s = .next (s.raise .nullArgument) := by
  simp [exec, execLdiv, he]

/-- `LDIV` with an IV of another size than the Key's is answered `SizeMismatch` (41_construct_reset.md R78). -/
theorem exec_ldiv_of_mismatch (he : s.engine = some e) (h : s.channels.iv.size ≠ e.n) :
    exec (.ldiv true) s = .next (s.raise .sizeMismatch) := by
  simp [exec, execLdiv, he, (seedRegister_eq_none_iff _ _).mpr h]

/-- Settles O15: an IV of the Key's size seeds a register, and `LDIV` sets that register alone. -/
theorem ldivSeedsTheRegister : Obligations.LdivSeedsTheRegister := by
  intro s e he hsize
  obtain ⟨reg, hreg⟩ := seedRegister_isSome hsize
  exact ⟨reg, seedRegister_toList hreg, execLdiv_seeds he hreg⟩

/-- Settles O17: the seeded register is a function of the IV alone, and it replaces the old one. -/
theorem ldivForgetsTheOldRegister : Obligations.LdivForgetsTheOldRegister := by
  intro s e old he hsize
  obtain ⟨reg, hreg⟩ := seedRegister_isSome hsize
  exact ⟨_, execLdiv_seeds he hreg,
    execLdiv_seeds (s := { s with engine := some { e with reg := old } }) (e := { e with reg := old }) rfl hreg⟩

/-- Settles O14: a reserved bit is the decoder's test, and each later test has its lemma about `LDIV`. -/
theorem ldivWordFollowsItsRule : Obligations.LdivWordFollowsItsRule := by
  rintro ⟨engine, channels, stream, responses⟩ w ch rest hs hop
  have hdecode := decodeCommand_of_ldivOpcode hop
  split at hdecode
  case isTrue hreserved =>
    obtain ⟨err, herr⟩ := hdecode
    rw [if_pos hreserved]
    exact step_of_illegal hs herr
  case isFalse hreserved =>
    rw [if_neg hreserved, step_of_command hs hdecode]
    cases engine with
    | none => exact (exec_without_engine rfl _).resolve_left nofun
    | some e =>
      dsimp only
      split_ifs with hnull hsize
      · rw [hnull]
        exact exec_ldiv_of_null rfl
      all_goals rw [Bool.not_eq_false] at hnull; rw [hnull]
      · exact exec_ldiv_of_mismatch rfl hsize
      · exact ldivSeedsTheRegister ⟨some e, ch, rest, responses⟩ e rfl (not_ne_iff.mp hsize)

/-- Settles O16: both `CONSTRUCT`s bind the Key that the first shows to be one, and `LDIV` replaces the register that the other
IV seeded. -/
theorem constructSeedsAsLdivDoes : Obligations.ConstructSeedsAsLdivDoes := by
  intro s t u mode iv₀ hsize ht hok hu
  obtain ⟨f, ⟨hf, -⟩, rfl⟩ | ⟨he, -, -, -, key, reg, hkey, hreg, rfl⟩ := execConstruct_next ht
  · simp [hf] at hok
  · obtain ⟨reg₀, hreg₀⟩ := seedRegister_isSome hsize
    have hbinds := execConstruct_binds (s := { s with channels := { s.channels with iv := iv₀ } }) mode he hkey hreg₀
    have hengine : u.engine = some ⟨s.channels.key.size, key, mode, reg₀⟩ := by
      cases hbinds.symm.trans hu
      rfl
    exact ⟨_, execLdiv_seeds hengine hreg, rfl, rfl⟩

end Sys2Proof.Machine
end

section
/-! PROOFS. The bit-steps on an engine (42_bit_transition.md R88, R89), and the byte-step read as a relation between the
bytes that go in and out and the registers between its iterations (R91 to R94). -/

namespace Sys2Proof

/-- The other mode (10_state.md R26). -/
def Mode.other : Mode → Mode
  | .encrypt => .decrypt
  | .decrypt => .encrypt

end Sys2Proof

namespace Sys2Proof.Machine

variable {n : Nat}

/-- Settles O18: the register after the bit-step under control bit 1, lane by lane. -/
theorem bitstepRedGathersThroughTheRedTables : Obligations.BitstepRedGathersThroughTheRedTables :=
  fun _ e he => ⟨bitStep e.key true e.reg, exec_of_engine he .bitstepRed, bitStep_zero _ _ _,
    fun i hi => bitStep_lane e.key true e.reg i hi⟩

/-- Settles O19: the register after the bit-step under control bit 0, lane by lane. -/
theorem bitstepBlueGathersThroughTheBlueTables : Obligations.BitstepBlueGathersThroughTheBlueTables :=
  fun _ e he => ⟨bitStep e.key false e.reg, exec_of_engine he .bitstepBlue, bitStep_zero _ _ _,
    fun i hi => bitStep_lane e.key false e.reg i hi⟩

/-- A byte-step from `b` to `r` goes through the registers `S 0, ..., S 8` (42_bit_transition.md R91, R93, R94).
Nothing is said of which of the two bytes was given: that makes the relation symmetric (`ByteRun.swap`). -/
def ByteRun (f : Feedback) (m : Mode) (k : Key n) (b r : Byte) (S : Nat → Vector Bool n) : Prop :=
  ∀ j < 8, S (j + 1) = bitStep k (controlBit f m (b.getLsbD j) (r.getLsbD j)) (S j) ∧
    r.getLsbD j = (b.getLsbD j ^^ topCell k (S j))

/-- Every byte-step is such a run. -/
theorem exists_byteRun (f : Feedback) (m : Mode) (k : Key n) (s : Vector Bool n) (b : Byte) :
    ∃ S, S 0 = s ∧ S 8 = (byteStep f m k s b).1 ∧ ByteRun f m k b (byteStep f m k s b).2 S := by
  obtain ⟨S, hzero, hlast, hrun⟩ := byteStep_trace f m k s b
  refine ⟨S, hzero, hlast.symm, fun j hj => ?_⟩
  obtain ⟨hstep, hbit⟩ := hrun j hj
  exact ⟨hbit ▸ hstep, hbit⟩

section
variable {f : Feedback} {m m' : Mode} {k : Key n} {b b' r r' : Byte} {S S' : Nat → Vector Bool n}

/-- Bit `j` of the keystream byte is the top cell before iteration `j` (42_bit_transition.md R91, R101). -/
theorem ByteRun.keystream (h : ByteRun f m k b r S) {j : Nat} (hj : j < 8) :
    (b.getLsbD j ^^ r.getLsbD j) = topCell k (S j) := by
  rw [(h j hj).2, ← Bool.xor_assoc, Bool.xor_self, Bool.false_xor]

/-- Two runs whose control bits agree as long as their registers do go through the same registers. -/
theorem ByteRun.registers_eq (h : ByteRun f m k b r S) (h' : ByteRun f m' k b' r' S') (hzero : S 0 = S' 0)
    (hcontrol : ∀ j < 8, S j = S' j →
      controlBit f m (b.getLsbD j) (r.getLsbD j) = controlBit f m' (b'.getLsbD j) (r'.getLsbD j)) :
    ∀ j ≤ 8, S j = S' j := by
  intro j hj
  induction j with
  | zero => exact hzero
  | succ j ih =>
    have hS := ih (by omega)
    rw [(h j hj).1, (h' j hj).1, hcontrol j hj hS, hS]

/-- The register and the byte that go in determine a run, so it is the byte-step's. -/
theorem ByteRun.byteStep_eq (h : ByteRun f m k b r S) : byteStep f m k (S 0) b = (S 8, r) := by
  obtain ⟨S', hzero, hlast, h'⟩ := exists_byteRun f m k (S 0) b
  have hbit {j : Nat} (hj : j < 8) (hS : S' j = S j) : (byteStep f m k (S 0) b).2.getLsbD j = r.getLsbD j := by
    rw [(h' j hj).2, (h j hj).2, hS]
  have hregs := h'.registers_eq h hzero fun j hj hS => by rw [hbit hj hS]
  refine Prod.ext (hlast.symm.trans (hregs 8 le_rfl)) (BitVec.eq_of_getLsbD_eq fun j hj => ?_)
  exact hbit hj (hregs j hj.le)

/-- In the other mode the byte that came out, taken in, drives the register through the same control bits, whichever
of the two is fed back (42_bit_transition.md R98, 93_implementation_defined.md U10). -/
theorem controlBit_other (f : Feedback) (m : Mode) (x y : Bool) : controlBit f m.other x y = controlBit f m y x := by
  cases f <;> cases m <;> rfl

/-- A run read backwards is one of the other mode. -/
theorem ByteRun.swap (h : ByteRun f m k b r S) : ByteRun f m.other k r b S := fun j hj => by
  refine ⟨by rw [controlBit_other]; exact (h j hj).1, ?_⟩
  rw [← h.keystream hj, Bool.xor_comm, Bool.xor_assoc, Bool.xor_self, Bool.xor_false]

end

/-- The other mode undoes a byte-step and moves the register alike (42_bit_transition.md R98). -/
theorem byteStep_other_byteStep (f : Feedback) (m : Mode) (k : Key n) (s : Vector Bool n) (b : Byte) :
    byteStep f m.other k s (byteStep f m k s b).2 = ((byteStep f m k s b).1, b) := by
  obtain ⟨S, rfl, hlast, hrun⟩ := exists_byteRun f m k s b
  exact hlast ▸ hrun.swap.byteStep_eq

/-- The other mode undoes a process operation and moves the register alike (42_bit_transition.md R98). -/
theorem byteSteps_other_byteSteps (f : Feedback) (m : Mode) (k : Key n) (s : Vector Bool n) (bs : List Byte) :
    byteSteps f m.other k s (byteSteps f m k s bs).2 = ((byteSteps f m k s bs).1, bs) := by
  induction bs generalizing s with
  | nil => rfl
  | cons b bs ih => simp only [byteSteps_cons, byteStep_other_byteStep, ih]

/-- Settles O34: each mode is the other of the other. -/
theorem roundTripHoldsForEitherFeedback : Obligations.RoundTripHoldsForEitherFeedback :=
  fun f _ k s d => ⟨byteSteps_other_byteSteps f .encrypt k s d, byteSteps_other_byteSteps f .decrypt k s d⟩

end Sys2Proof.Machine
end

section
/-! PROOFS. `BYTE`: the packing of its result (42_bit_transition.md R92, R93), and what the control bit of every
iteration, the ciphertext bit (R94), implies for the register and the keystream (R100, R101, R133). -/

namespace Sys2Proof.Machine

variable {n : Nat} {s t : State} {e : Engine} {m : Mode} {k : Key n} {b r : Byte} {S : Nat → Vector Bool n}

/-- The result byte after the first `j` iterations, whose output bits are `out` (42_bit_transition.md R92). -/
def packed (out : Nat → Bool) (j : Nat) : Byte := (List.range j).foldl (fun r i => packBit r (out i)) 0#8

theorem packed_succ (out : Nat → Bool) (j : Nat) : packed out (j + 1) = packBit (packed out j) (out j) := by
  simp only [packed, List.range_succ, List.foldl_append, List.foldl_cons, List.foldl_nil]

/-- A byte is the packing of its bits. -/
theorem packed_getLsbD (r : Byte) : packed r.getLsbD 8 = r :=
  BitVec.eq_of_getLsbD_eq fun j hj => packBit_eight r.getLsbD j hj

/-- With no engine `BYTE` is answered `NotConstructed` (42_bit_transition.md R93). -/
theorem exec_byte_without_engine (he : s.engine = none) (b : Byte) :
    exec (.byte b) s = .next (s.raise .notConstructed) :=
  (exec_without_engine he (.byte b)).resolve_left nofun

/-- `BYTE` on an engine goes through the registers of a run and answers the byte of that run (42_bit_transition.md
R93). -/
theorem exec_byte_of_engine (he : s.engine = some e) (b : Byte) :
    ∃ S r, S 0 = e.reg ∧ ByteRun Config.feedback e.mode e.key b r S ∧
      exec (.byte b) s = .next ((s.setEngine { e with reg := S 8 }).respondOk (some (.byte r))) := by
  obtain ⟨S, hzero, hlast, hrun⟩ := exists_byteRun Config.feedback e.mode e.key e.reg b
  exact ⟨S, _, hzero, hrun, hlast ▸ execByte_ready b he⟩

/-- The control bit of iteration `j` is bit `j` of the ciphertext byte (42_bit_transition.md R94). -/
theorem controlBit_feedback (m : Mode) (b r : Byte) (j : Nat) :
    controlBit Config.feedback m (b.getLsbD j) (r.getLsbD j) = (ciphertextByte m b r).getLsbD j := by
  cases m <;> rfl

/-- The ciphertext byte alone drives the register of a run (42_bit_transition.md R94). -/
theorem ByteRun.register_succ (h : ByteRun Config.feedback m k b r S) {j : Nat} (hj : j < 8) :
    S (j + 1) = bitStep k ((ciphertextByte m b r).getLsbD j) (S j) := by
  rw [(h j hj).1, controlBit_feedback]

/-- After an iteration position 0 holds its ciphertext bit (42_bit_transition.md R88, R89, R94). -/
theorem ByteRun.position_zero (h : ByteRun Config.feedback m k b r S) {j : Nat} (hj : j < 8) :
    (S (j + 1))[0]'k.pos = (ciphertextByte m b r).getLsbD j := by
  rw [h.register_succ hj, bitStep_zero]

/-- Settles O22: the run's registers, and the packing of its result's bits. -/
theorem byteRunsEightBitSteps : Obligations.ByteRunsEightBitSteps := by
  intro s b
  split
  · next he => exact exec_byte_without_engine he b
  · next e he =>
    obtain ⟨S, r, hzero, hrun, hexec⟩ := exec_byte_of_engine he b
    refine ⟨S, packed r.getLsbD, r.getLsbD, hzero, rfl, fun j hj => ⟨(hrun j hj).2, packed_succ _ j, ?_, ?_⟩, ?_⟩
    · rw [hrun.register_succ hj]
      cases e.mode <;> rfl
    · rw [packed_getLsbD]
    · rw [packed_getLsbD]
      exact hexec

/-- Settles O23: what position 0 holds after the last iteration. -/
theorem positionZeroHoldsTheLastCiphertextBit : Obligations.PositionZeroHoldsTheLastCiphertextBit := by
  intro s e b he
  obtain ⟨S, r, -, hrun, hexec⟩ := exec_byte_of_engine he b
  refine ⟨S 8, r, hexec, (hrun.position_zero (j := 7) (by omega)).trans ?_⟩
  cases e.mode <;> rfl

/-- Settles O24: with one cell, the top cell is position 0. -/
theorem sizeOneHasAClosedForm : Obligations.SizeOneHasAClosedForm := by
  intro s key mode x b he
  obtain ⟨S, r, hzero, hrun, hexec⟩ := exec_byte_of_engine he b
  refine ⟨fun j => (S j)[0], r, by simp [hzero], fun j hj => ⟨(hrun j hj).2, ?_⟩, ?_⟩
  · refine (hrun.position_zero hj).trans ?_
    cases mode <;> rfl
  · have hreg : #v[(S 8)[0]] = S 8 := by
      ext i hi
      obtain rfl : i = 0 := by omega
      rfl
    rw [hreg]
    exact hexec

/-- The top cell is the last bit of the register (42_bit_transition.md R91). -/
theorem some_topCell (k : Key n) (reg : Vector Bool n) : some (topCell k reg) = reg.toList.getLast? := by
  have hlt : n - 1 < n := Nat.sub_lt k.pos Nat.one_pos
  simp [List.getLast?_eq_getElem?, topCell, hlt]

/-- Settles O25: bit 0 of the keystream is the top cell of the seeded register. -/
theorem firstKeystreamBitIsTheTopIvBit : Obligations.FirstKeystreamBitIsTheTopIvBit := by
  intro s t b ht hok
  obtain ⟨f, ⟨hf, -⟩, rfl⟩ | ⟨e, reg, he, -, hreg, rfl⟩ := execLdiv_next ht
  · simp [hf] at hok
  · obtain ⟨S, r, hzero, hrun, hexec⟩ :=
      exec_byte_of_engine (s := (s.setEngine { e with reg := reg }).respondOk none) rfl b
    refine ⟨_, r, hexec, rfl, ?_⟩
    rw [hrun.keystream (by omega), hzero, some_topCell, seedRegister_toList hreg]

/-- Settles O26: the ciphertext byte drives both registers through the same values, and each keystream bit is a cell
of them. -/
theorem equalCiphertextKeepsEnginesInLockStep : Obligations.EqualCiphertextKeepsEnginesInLockStep := by
  intro s e m b₁ b₂ r₁ r₂ t₁ t₂ he ht₁ hok₁ ht₂ hok₂ hcipher
  obtain ⟨S₁, r₁', hzero₁, hrun₁, hexec₁⟩ := exec_byte_of_engine he b₁
  obtain ⟨S₂, r₂', hzero₂, hrun₂, hexec₂⟩ :=
    exec_byte_of_engine (s := { s with engine := some { e with mode := m } }) rfl b₂
  cases hexec₁.symm.trans ht₁
  cases hexec₂.symm.trans ht₂
  obtain rfl : r₁' = r₁ := by simpa using hok₁
  obtain rfl : r₂' = r₂ := by simpa using hok₂
  have hregs := hrun₁.registers_eq hrun₂ (hzero₁.trans hzero₂.symm) fun j _ _ => by
    rw [controlBit_feedback, controlBit_feedback, hcipher]
  refine ⟨BitVec.eq_of_getLsbD_eq fun j hj => ?_, S₁ 8, rfl, ?_⟩
  · rw [BitVec.getLsbD_xor, BitVec.getLsbD_xor, hrun₁.keystream hj, hrun₂.keystream hj, hregs j hj.le]
  · rw [hregs 8 le_rfl]
    rfl

end Sys2Proof.Machine
end

section
/-! PROOFS. `PROC`: its word, the tests of its descriptor and its byte-steps (42_bit_transition.md R95, R97, R98). -/

namespace Sys2Proof

variable {w : CommandWord}

/-- A word with the opcode of `PROC` is that command unless its immediate is not 0 (30_encoding.md R61, R64). -/
theorem decodeCommand_of_procOpcode (hop : opField w = 0x04#8) :
    if immField w ≠ 0#8 then ∃ err, decodeCommand w = .illegal err else decodeCommand w = .command .proc := by
  have hw : w.toNat = 1024 + (immField w).toNat := toNat_of_opField hop
  have himm := (immField w).isLt
  have hzero : immField w = 0#8 ↔ (immField w).toNat = 0 := BitVec.toNat_inj.symm
  simp only [ne_eq, hzero]
  split_ifs with hreserved
  · exact decodeCommand_proc (procRow_iff.mpr (by omega))
  · exact decodeCommand_illegal_of_ranges (by omega) (by omega) (by omega) (by omega)

end Sys2Proof

namespace Sys2Proof.Machine

variable {s t : State} {e : Engine}

/-! ### The bytes of a descriptor -/

/-- `PROC` reads as many bytes as its descriptor asks for (42_bit_transition.md R95). -/
theorem descBytes_length_toInt {d : Desc} (h : descInBounds d = true) :
    ((descBytes d).length : Int) = d.length.toInt := by
  obtain ⟨-, hlen, -⟩ := (descInBounds_iff d).mp h
  rw [descBytes_length d h, descLength, Int.toNat_of_nonneg hlen]

/-- Two consecutive sub-ranges read the bytes of the range that they make up. -/
theorem descBytes_append {buf : List Byte} {off len₁ len₂ second both : DescWord} (hoff : 0 ≤ off.toInt)
    (hlen₁ : 0 ≤ len₁.toInt) (hlen₂ : 0 ≤ len₂.toInt) (hsecond : second.toInt = off.toInt + len₁.toInt)
    (hboth : both.toInt = len₁.toInt + len₂.toInt) :
    descBytes ⟨buf, off, both⟩ = descBytes ⟨buf, off, len₁⟩ ++ descBytes ⟨buf, second, len₂⟩ := by
  simp only [descBytes, descOffset, descLength, hsecond, hboth, Int.toNat_add hoff hlen₁, Int.toNat_add hlen₁ hlen₂,
    List.take_add, List.drop_drop]

/-- The bounds rule reads the length of the buffer and nothing else of it (42_bit_transition.md R95). -/
theorem descInBounds_congr {d : Desc} {buf : List Byte} (hlength : buf.length = d.buf.length) :
    descInBounds { d with buf := buf } = descInBounds d := by
  rw [Bool.eq_iff_iff, descInBounds_iff, descInBounds_iff, hlength]

/-- With its range inside the buffer, a descriptor reads nothing else of the buffer (20_memory.md R41). -/
theorem descBytes_congr {d : Desc} {buf : List Byte} (h : descInBounds d = true)
    (hrange : ∀ a : Nat, d.offset.toInt ≤ (a : Int) → (a : Int) < d.offset.toInt + d.length.toInt →
      buf[a]? = d.buf[a]?) :
    descBytes { d with buf := buf } = descBytes d := by
  obtain ⟨hoff, -, -⟩ := (descInBounds_iff d).mp h
  refine List.ext_getElem? fun k => ?_
  obtain hk | hk := lt_or_ge k (descLength d).toNat
  · rw [descBytes_getElem? { d with buf := buf } k hk, descBytes_getElem? d k hk]
    unfold descLength at hk
    exact hrange ((descOffset d).toNat + k) (by unfold descOffset; omega) (by unfold descOffset; omega)
  · have hpast (b : List Byte) : (descBytes { d with buf := b })[k]? = none :=
      List.getElem?_eq_none ((List.length_take_le _ _).trans hk)
    rw [hpast, hpast d.buf]

/-- A length below `2^31` is the one that the descriptor of the whole buffer shows (30_encoding.md R61, R67). -/
theorem wholeBuffer_length_toInt {bs : List Byte} (h : bs.length < 2 ^ 31) :
    (wholeBuffer bs).length.toInt = (bs.length : Int) := by
  have hnat : (BitVec.ofNat 32 bs.length).toNat = bs.length := Nat.mod_eq_of_lt (by omega)
  change (BitVec.ofNat 32 bs.length).toInt = _
  rw [BitVec.toInt_eq_toNat_of_lt (by omega), hnat]

/-- The whole of a buffer that a descriptor can show is in bounds. -/
theorem descInBounds_wholeBuffer {bs : List Byte} (h : bs.length < 2 ^ 31) : descInBounds (wholeBuffer bs) = true := by
  rw [descInBounds_iff, wholeBuffer_length_toInt h]
  simp [wholeBuffer]

/-- The descriptor of a whole buffer reads the buffer (30_encoding.md R67). -/
theorem descBytes_wholeBuffer {bs : List Byte} (h : bs.length < 2 ^ 31) : descBytes (wholeBuffer bs) = bs := by
  rw [descBytes, descLength, wholeBuffer_length_toInt h]
  simp [wholeBuffer, descOffset]

/-! ### Byte-steps of an engine -/

@[simp] theorem Engine.byteSteps_nil (e : Engine) : e.byteSteps [] = (e, []) := rfl

/-- The engine is carried from the first byte to the later ones (42_bit_transition.md R95). -/
theorem Engine.byteSteps_cons (e : Engine) (b : Byte) (bs : List Byte) :
    e.byteSteps (b :: bs) =
      (((e.byteStep b).1.byteSteps bs).1, (e.byteStep b).2 :: ((e.byteStep b).1.byteSteps bs).2) := rfl

/-- The engine is carried from the first bytes to the later ones (42_bit_transition.md R95). -/
theorem Engine.byteSteps_append (e : Engine) (as bs : List Byte) :
    e.byteSteps (as ++ bs) =
      (((e.byteSteps as).1.byteSteps bs).1, (e.byteSteps as).2 ++ ((e.byteSteps as).1.byteSteps bs).2) := by
  simp only [Engine.byteSteps, Machine.byteSteps_append]

theorem Engine.byteSteps_length (e : Engine) (bs : List Byte) : (e.byteSteps bs).2.length = bs.length :=
  Machine.byteSteps_length _ _ _ _ _

/-- Byte-step `k` runs on the engine that the bytes before it leave, and gives byte `k` of the output
(42_bit_transition.md R95). -/
theorem Engine.byteSteps_getElem? (e : Engine) {bs : List Byte} {k : Nat} {b : Byte} (h : bs[k]? = some b) :
    (e.byteSteps (bs.take (k + 1))).1 = ((e.byteSteps (bs.take k)).1.byteStep b).1 ∧
      (e.byteSteps bs).2[k]? = some ((e.byteSteps (bs.take k)).1.byteStep b).2 := by
  obtain ⟨hk, rfl⟩ := List.getElem?_eq_some_iff.mp h
  constructor
  · rw [← List.take_append_getElem hk, Engine.byteSteps_append]
    rfl
  · have hlen : (e.byteSteps (bs.take k)).2.length = k := by
      rw [Engine.byteSteps_length, List.length_take_of_le hk.le]
    conv_lhs => rw [← List.take_append_drop k bs, List.drop_eq_getElem_cons hk, Engine.byteSteps_append]
    rw [List.getElem?_append_right hlen.le, hlen, Nat.sub_self, Engine.byteSteps_cons]
    rfl

/-- `BYTE` commands issued in order run the byte-steps of their bytes, and each answers its byte (42_bit_transition.md
R97). -/
theorem execBytes_of_engine (bs : List Byte) (he : s.engine = some e) :
    execBytes bs s = .next { s with
      engine := some (e.byteSteps bs).1
      responses := ((e.byteSteps bs).2.map fun r => ⟨.ok, some (.byte r)⟩).reverse ++ s.responses } := by
  induction bs generalizing s e with
  | nil =>
    rw [Engine.byteSteps_nil, ← he]
    rfl
  | cons b bs ih =>
    have hfirst : exec (.byte b) s = _ := execByte_ready b he
    rw [execBytes, hfirst]
    dsimp only
    rw [ih (e := (e.byteStep b).1) rfl, Engine.byteSteps_cons, List.map_cons, List.reverse_cons, List.append_assoc]
    rfl

/-! ### The command -/

/-- `PROC` with its range inside the buffer runs the byte-steps over the range (42_bit_transition.md R95). -/
theorem exec_proc_of_inBounds (he : s.engine = some e) (h : descInBounds s.channels.desc = true) :
    exec .proc s = .next ((s.setEngine (e.byteSteps (descBytes s.channels.desc)).1).respondOk
      (some (.out (e.byteSteps (descBytes s.channels.desc)).2))) :=
  execProc_ready he h

/-- `PROC` with its range outside the buffer is answered `BoundsError` (42_bit_transition.md R95). -/
theorem exec_proc_of_outOfBounds (he : s.engine = some e) (h : descInBounds s.channels.desc = false) :
    exec .proc s = .next (s.raise .boundsError) := by
  simp [exec, execProc, he, h]

/-- Settles O27: the immediate is the decoder's test, the bounds rule is `descInBounds`, and the byte-steps are those
over the bytes of the range, one by one. -/
theorem procWordFollowsItsRule : Obligations.ProcWordFollowsItsRule := by
  rintro ⟨engine, channels, stream, responses⟩ w ch rest hs hop
  have hdecode := decodeCommand_of_procOpcode hop
  split at hdecode
  case isTrue hreserved =>
    obtain ⟨err, herr⟩ := hdecode
    rw [if_pos hreserved]
    exact step_of_illegal hs herr
  case isFalse hreserved =>
    rw [if_neg hreserved, step_of_command hs hdecode]
    cases engine with
    | none => exact (exec_without_engine rfl _).resolve_left nofun
    | some e =>
      dsimp only
      have hbounds := descInBounds_iff ch.desc
      split_ifs with hout
      · refine exec_proc_of_outOfBounds rfl (Bool.eq_false_iff.mpr fun h => ?_)
        obtain ⟨hoff, hlen, hsum⟩ := hbounds.mp h
        omega
      · have hin : descInBounds ch.desc = true := hbounds.mpr (by omega)
        have hlen := e.byteSteps_length (descBytes ch.desc)
        refine ⟨fun k => (e.byteSteps ((descBytes ch.desc).take k)).1, (e.byteSteps (descBytes ch.desc)).2, rfl,
          ?_, ?_, ?_⟩
        · rw [hlen, descBytes_length_toInt hin]
        · intro k hk
          rw [hlen] at hk
          have hbyte := List.getElem?_eq_getElem hk
          have hread := descBytes_getElem? ch.desc k (descBytes_length _ hin ▸ hk)
          exact ⟨_, hread.symm.trans hbyte, e.byteSteps_getElem? hbyte⟩
        · dsimp only
          rw [hlen, List.take_length]
          exact exec_proc_of_inBounds rfl hin

/-- Settles O28: one byte comes out per byte read, and reading no byte leaves the register. -/
theorem procAnswersLengthBytes : Obligations.ProcAnswersLengthBytes := by
  intro s e he hoff hlen hsum
  have hin := (descInBounds_iff _).mpr ⟨hoff, hlen, hsum⟩
  refine ⟨_, _, exec_proc_of_inBounds he hin, ?_, fun hzero => ?_⟩
  · rw [Engine.byteSteps_length, descBytes_length_toInt hin]
  · have hempty : descBytes s.channels.desc = [] := by
      rw [← List.length_eq_zero_iff, descBytes_length _ hin, descLength, hzero]
      rfl
    rw [hempty]
    exact ⟨rfl, rfl⟩

/-- Settles O29: both run the byte-steps over the bytes of the range. -/
theorem procIsASequenceOfBytes : Obligations.ProcIsASequenceOfBytes := by
  intro s e off len he hoff hlen hsum
  have hin := (descInBounds_iff s.channels.desc).mpr ⟨by omega, by omega, by omega⟩
  have hbytes : descBytes s.channels.desc = (s.channels.desc.buf.drop off).take len := by
    rw [descBytes, descOffset, descLength, hoff, hlen, Int.toNat_natCast, Int.toNat_natCast]
  refine ⟨_, _, exec_proc_of_inBounds he hin, ?_⟩
  rw [← hbytes]
  exact execBytes_of_engine _ he

/-- Settles O30: the bytes of both sub-ranges are the bytes of one after those of the other. -/
theorem procSplitsOverConsecutiveRanges : Obligations.ProcSplitsOverConsecutiveRanges := by
  intro s t off len₁ len₂ both second out₁ hsecond hboth hlen₂ hsum ht hok
  obtain ⟨f, ⟨hf, -⟩, rfl⟩ | ⟨e, he, hin, rfl⟩ := execProc_next ht
  · simp [hf] at hok
  · obtain ⟨hoff, hlen₁, -⟩ : 0 ≤ off.toInt ∧ 0 ≤ len₁.toInt ∧ _ := (descInBounds_iff _).mp hin
    obtain rfl : (e.byteSteps (descBytes ⟨s.channels.desc.buf, off, len₁⟩)).2 = out₁ := by simpa using hok
    have hin₂ : descInBounds ⟨s.channels.desc.buf, second, len₂⟩ = true :=
      (descInBounds_iff _).mpr ⟨by dsimp only; omega, hlen₂, hsum⟩
    have hin₁₂ : descInBounds ⟨s.channels.desc.buf, off, both⟩ = true :=
      (descInBounds_iff _).mpr ⟨hoff, by dsimp only; omega, by dsimp only; omega⟩
    refine ⟨_, _, _, exec_proc_of_inBounds rfl hin₂, rfl, exec_proc_of_inBounds he hin₁₂, ?_, ?_⟩ <;>
      simp [descBytes_append hoff hlen₁ hlen₂ hsecond hboth, Engine.byteSteps_append]

/-- Settles O31: the bounds test and the bytes read are the same for both buffers. -/
theorem procReadsOnlyItsRange : Obligations.ProcReadsOnlyItsRange := by
  rintro ⟨engine, ch, stream, responses⟩ buf hlength hrange
  have hbounds := descInBounds_congr (d := ch.desc) hlength
  cases engine with
  | none =>
    exact ⟨_, _, (exec_without_engine rfl .proc).resolve_left nofun, (exec_without_engine rfl .proc).resolve_left nofun⟩
  | some e =>
    cases hin : descInBounds ch.desc with
    | false => exact ⟨_, _, exec_proc_of_outOfBounds rfl hin, exec_proc_of_outOfBounds rfl (hbounds.trans hin)⟩
    | true =>
      refine ⟨_, _, exec_proc_of_inBounds rfl hin, ?_⟩
      rw [← descBytes_congr hin hrange]
      exact exec_proc_of_inBounds rfl (hbounds.trans hin)

end Sys2Proof.Machine
end

section
/-! PROOFS. The round trip on engines and from the power-on reset (42_bit_transition.md R98), and what the effect and
the response of a command depend on (R99, 70_reset_and_hazards.md R137). -/

namespace Sys2Proof.Machine

/-- The engine in the other mode takes the bytes back and moves its register alike (42_bit_transition.md R98). -/
theorem Engine.byteSteps_other (e : Engine) (bs : List Byte) :
    ({ e with mode := e.mode.other } : Engine).byteSteps (e.byteSteps bs).2 =
      ({ (e.byteSteps bs).1 with mode := e.mode.other }, bs) := by
  simp only [Engine.byteSteps, byteSteps_other_byteSteps]

/-- `PROC` over a whole buffer runs the byte-steps over it (30_encoding.md R67, `PROCALL`). -/
theorem exec_proc_wholeBuffer {s : State} {e : Engine} {bs : List Byte} (he : s.engine = some e)
    (hdesc : s.channels.desc = wholeBuffer bs) (hlen : bs.length < 2 ^ 31) :
    exec .proc s = .next ((s.setEngine (e.byteSteps bs).1).respondOk (some (.out (e.byteSteps bs).2))) := by
  rw [exec_proc_of_inBounds he (hdesc ▸ descInBounds_wholeBuffer hlen), hdesc, descBytes_wholeBuffer hlen]

/-- Settles O33: encrypting is the other mode of decrypting. -/
theorem encryptingTheDecryptionGivesTheInput : Obligations.EncryptingTheDecryptionGivesTheInput := by
  intro s ⟨n, key, mode, reg⟩ x _ hx
  have hy := (Engine.byteSteps_length ⟨n, key, .decrypt, reg⟩ x).trans_lt hx
  have hback := Engine.byteSteps_other ⟨n, key, .decrypt, reg⟩ x
  rw [Mode.other] at hback
  refine ⟨_, _, exec_proc_wholeBuffer (e := ⟨n, key, .decrypt, reg⟩) rfl rfl hx, ?_⟩
  rw [exec_proc_wholeBuffer (e := ⟨n, key, .encrypt, reg⟩) rfl rfl hy, hback]
  rfl

/-- The reset state with a `CONSTRUCT` word and a `PROC` over a whole buffer presented. -/
def constructThenProcAll (w : CommandWord) (k : KeyOperand) (iv : IvOperand) (d : List Byte) : State :=
  { State.reset with
    stream := [.command w ⟨k, iv, Channels.idle.desc⟩, .command 0x0400#16 ⟨k, iv, wholeBuffer d⟩] }

/-- From reset, a `CONSTRUCT` that binds and seeds and a `PROC` over a whole buffer both answer `OK`, and `PROC` runs
the byte-steps of the new engine. -/
theorem run_constructThenProcAll {w : CommandWord} {k : KeyOperand} {iv : IvOperand} {d : List Byte} {mode : Mode}
    {key : Key k.size} {reg : Vector Bool k.size} {e : Engine}
    (hw : decodeCommand w = .command (.construct mode true true true)) (hkey : bindKey k = some key)
    (hreg : seedRegister k.size iv = some reg) (hd : d.length < 2 ^ 31) (he : e = ⟨k.size, key, mode, reg⟩) :
    core.run 2 (constructThenProcAll w k iv d) =
      .next ⟨some (e.byteSteps d).1, ⟨k, iv, wholeBuffer d⟩, [],
        [⟨.ok, some (.out (e.byteSteps d).2)⟩, ⟨.ok, none⟩]⟩ := by
  have hconstruct : step (constructThenProcAll w k iv d) =
      .next ⟨some e, ⟨k, iv, Channels.idle.desc⟩, [.command 0x0400#16 ⟨k, iv, wholeBuffer d⟩], [⟨.ok, none⟩]⟩ := by
    rw [step_of_command (s := constructThenProcAll w k iv d) rfl hw, he]
    exact execConstruct_binds (s := ⟨none, ⟨k, iv, Channels.idle.desc⟩, _, _⟩) mode rfl hkey hreg
  have hproc : step ⟨some e, ⟨k, iv, Channels.idle.desc⟩, [.command 0x0400#16 ⟨k, iv, wholeBuffer d⟩], [⟨.ok, none⟩]⟩ =
      .next ⟨some (e.byteSteps d).1, ⟨k, iv, wholeBuffer d⟩, [],
        [⟨.ok, some (.out (e.byteSteps d).2)⟩, ⟨.ok, none⟩]⟩ := by
    rw [step_of_command (i := .proc) rfl (by decide)]
    exact exec_proc_wholeBuffer rfl rfl hd
  simp only [Host.Core.run, core, hconstruct, hproc]

/-- Settles O32: both engines are bound to one Key and seeded from one IV, and decrypting is the other mode of
encrypting. -/
theorem decryptingTheEncryptionGivesThePlaintext : Obligations.DecryptingTheEncryptionGivesThePlaintext := by
  intro k iv d hk hsize hd
  obtain ⟨key, hkey⟩ := Option.isSome_iff_exists.mp ((bindKey_isSome_iff k).mpr hk)
  obtain ⟨reg, hreg⟩ := seedRegister_isSome hsize
  have hlen := Engine.byteSteps_length ⟨k.size, key, .encrypt, reg⟩ d
  have hback := Engine.byteSteps_other ⟨k.size, key, .encrypt, reg⟩ d
  simp only [Mode.other] at hback
  refine ⟨_, _, _, (Engine.byteSteps ⟨k.size, key, .encrypt, reg⟩ d).1,
    run_constructThenProcAll (by decide) hkey hreg hd rfl, rfl, hlen,
    run_constructThenProcAll (mode := .decrypt) (by decide) hkey hreg (hlen.trans_lt hd) rfl, ?_, rfl, ?_⟩
  · simp only [hback]
  · simp only [hback]

/-- The answer of `CONSTRUCT` where there is no engine, and the engine it leaves, depend on its operands alone
(42_bit_transition.md R99). -/
theorem exec_construct_of_agree {mode : Mode} {mp kp ip : Bool} {s s' t : State} (hs : s.engine = none)
    (hs' : s'.engine = none) (hch : s.channels = s'.channels) (h : exec (.construct mode mp kp ip) s = .next t) :
    ∃ t' new, exec (.construct mode mp kp ip) s' = .next t' ∧ t'.engine = t.engine ∧
      t.responses = new :: s.responses ∧ t'.responses = new :: s'.responses := by
  obtain ⟨_, ch, st, rs⟩ := s
  obtain ⟨_, _, st', rs'⟩ := s'
  cases hs
  cases hs'
  cases hch
  by_cases hnull : kp = false ∨ mp = false ∨ ip = false
  · cases (exec_construct_of_null rfl hnull).symm.trans h
    exact ⟨_, _, exec_construct_of_null rfl hnull, rfl, rfl, rfl⟩
  obtain ⟨rfl, rfl, rfl⟩ : kp = true ∧ mp = true ∧ ip = true := by simpa using hnull
  by_cases hsize : ch.iv.size = ch.key.size
  · by_cases hk : ch.key.WellFormed
    · obtain ⟨key, hkey⟩ := Option.isSome_iff_exists.mp ((bindKey_isSome_iff _).mpr hk)
      obtain ⟨reg, hreg⟩ := seedRegister_isSome hsize
      cases (execConstruct_binds (s := ⟨none, ch, st, rs⟩) mode rfl hkey hreg).symm.trans h
      exact ⟨_, _, execConstruct_binds (s := ⟨none, ch, st', rs'⟩) mode rfl hkey hreg, rfl, rfl, rfl⟩
    · cases (constructRefusesAnObjectThatIsNoKey ⟨none, ch, st, rs⟩ mode rfl hsize hk).symm.trans h
  · cases (exec_construct_of_mismatch rfl hsize).symm.trans h
    exact ⟨_, _, exec_construct_of_mismatch rfl hsize, rfl, rfl, rfl⟩

/-- Settles O38: on an engine by `reaction`, with none by the fault that every command but `CONSTRUCT` answers. -/
theorem commandsDependOnlyOnEngineAndOperands : Obligations.CommandsDependOnlyOnEngineAndOperands := by
  rintro i ⟨engine, ch, st, rs⟩ ⟨_, _, st', rs'⟩ t ⟨⟩ ⟨⟩ h
  cases engine with
  | some e =>
    rw [exec_of_engine rfl] at h
    cases h
    exact ⟨_, _, exec_of_engine rfl i, rfl, rfl, rfl⟩
  | none =>
    by_cases hi : ∃ mode mp kp ip, i = .construct mode mp kp ip
    · obtain ⟨mode, mp, kp, ip, rfl⟩ := hi
      obtain ⟨t', new, ht', hengine, hnew, hnew'⟩ :=
        exec_construct_of_agree (s := ⟨none, ch, st, rs⟩) (s' := ⟨none, ch, st', rs'⟩) rfl rfl rfl h
      exact ⟨t', [new], ht', hengine, hnew, hnew'⟩
    · have hexec {s : State} (hs : s.engine = none) := (exec_without_engine hs i).resolve_left hi
      rw [hexec rfl] at h
      split at h
      · next hhost =>
        cases h
        exact ⟨_, [_], (hexec rfl).trans (if_pos hhost), rfl, rfl, rfl⟩
      · cases h

end Sys2Proof.Machine
end

section
/-! PROOFS. Faults are precise: a presented command that answers a fault has changed nothing of the engine, and what comes
next cannot tell that it was issued (60_exceptions.md R106 to R114). -/

namespace Sys2Proof.Machine

variable {s s' t u : State} {w : CommandWord} {ch : Channels} {rest : List Issue}

/-- The statuses in the order of the table (60_exceptions.md R106). -/
def statusTable : List Status :=
  [.ok, .invalidSize, .nullArgument, .sizeMismatch, .boundsError, .illegalCommand, .notConstructed, .alreadyConstructed]

theorem mem_statusTable (f : Status) : f ∈ statusTable := by
  cases f <;> decide

theorem statusTable_map_statusCode : statusTable.map statusCode = [0, 1, 2, 3, 4, 5, 6, 7] := rfl

/-- Settles O39: the table lists every status, and the codes of its rows have no duplicate. -/
theorem statusCodesAreTheTables : Obligations.StatusCodesAreTheTables := by
  have hnodup : (statusTable.map statusCode).Nodup := by
    rw [statusTable_map_statusCode]
    decide
  exact ⟨statusTable_map_statusCode, fun f g h =>
    List.inj_on_of_nodup_map hnodup (mem_statusTable f) (mem_statusTable g) h⟩

/-- Only a host command has a command word (30_encoding.md R55, R57). -/
theorem fromHost_of_decodeCommand {i : Instr} (h : decodeCommand w = .command i) : i.fromHost = true :=
  fromHost_iff.mpr ⟨w, encode_of_decodeCommand h⟩

/-- A word that selects no row is no command: the word of every instruction selects a row (30_encoding.md R63, R64). -/
theorem decodeCommand_illegal_of_not_selects (h : ∀ r ∈ opcodeRows, r.selects w = false) :
    ∃ e, decodeCommand w = .illegal e := by
  cases hw : decodeCommand w with
  | illegal e => exact ⟨e, rfl⟩
  | command i =>
    have hrow := encode_selects_one_row i
    rw [Laws.OneRow.Statement, encode_of_decodeCommand hw] at hrow
    have hnone : opcodeRows.filter (fun r => r.selects w) = [] :=
      List.filter_eq_nil_iff.mpr fun r hr => by simp [h r hr]
    simp [hnone] at hrow

/-- Settles O10: the word is no command, and raising `IllegalCommand` keeps the engine. -/
theorem illegalWordAnswersIllegalCommand : Obligations.IllegalWordAnswersIllegalCommand := by
  intro s w ch rest hs hsel
  obtain ⟨e, hw⟩ := decodeCommand_illegal_of_not_selects hsel
  exact step_of_illegal hs hw

/-- A presented command that answers either raised a fault or succeeded (60_exceptions.md R106, R113). -/
theorem step_command_next_cases (hs : s.stream = .command w ch :: rest) (h : step s = .next t) :
    (∃ f, t = State.raise { s with channels := ch, stream := rest } f) ∨
    ∃ e v, t = (State.setEngine { s with channels := ch, stream := rest } e).respondOk v := by
  cases hw : decodeCommand w with
  | illegal r =>
    rw [step_of_illegal hs hw] at h
    cases h
    exact .inl ⟨_, rfl⟩
  | command i =>
    rw [step_of_command hs hw] at h
    obtain ⟨-, f, -, ht⟩ | ⟨-, hok⟩ | ⟨hi, -⟩ := exec_next_cases h
    · exact .inl ⟨f, ht⟩
    · exact .inr hok
    · simp [fromHost_of_decodeCommand hw] at hi

/-- Settles O36: a command that did not succeed did nothing but raise its fault. -/
theorem faultingCommandChangesNothing : Obligations.FaultingCommandChangesNothing := by
  intro s t w ch rest r rs hs h hr hstatus
  obtain ⟨f, rfl⟩ | ⟨e, v, rfl⟩ := step_command_next_cases hs h
  · cases hr
    exact ⟨rfl, rfl⟩
  · cases hr
    exact absurd rfl hstatus

/-- A micro-operation on a constructed engine reads no channel (42_bit_transition.md R88, R89). -/
theorem exec_decodeMicro_of_engine {e : Engine} (he : s.engine = some e) (u : MicroWord) :
    exec (decodeMicro u) s = .next (s.setEngine (e.bitStep (u.getLsbD 0))) := by
  unfold decodeMicro
  cases u.getLsbD 0 with
  | true => exact exec_of_engine he .bitstepRed
  | false => exact exec_of_engine he .bitstepBlue

/-- What a step does to the engine, takes and answers depends on the engine and the stream alone: not on the channels of the
command before, nor on earlier responses (30_encoding.md R56, 60_exceptions.md R114). -/
theorem step_of_agree (he : s.engine = s'.engine) (hst : s.stream = s'.stream) (h : step s = .next u) :
    ∃ v new, step s' = .next v ∧ v.engine = u.engine ∧ v.stream = u.stream ∧
      u.responses = new ++ s.responses ∧ v.responses = new ++ s'.responses := by
  obtain ⟨hs, rfl⟩ | ⟨rest, hs, rfl⟩ | ⟨w, ch, rest, r, hs, hw, rfl⟩ | ⟨w, ch, rest, i, hs, hw, hi⟩ | ⟨m, rest, hs, hi⟩ :=
    step_next_cases h
  · exact ⟨s', [], step_of_stream_nil (hst ▸ hs), he.symm, hst.symm, rfl, rfl⟩
  · exact ⟨_, [], step_of_powerOn (hst ▸ hs), rfl, rfl, rfl, rfl⟩
  · exact ⟨_, [_], step_of_illegal (hst ▸ hs) hw, he.symm, rfl, rfl, rfl⟩
  · obtain ⟨v, new, hv, hengine, hnew, hnew'⟩ :=
      commandsDependOnlyOnEngineAndOperands i { s with channels := ch, stream := rest }
        { s' with channels := ch, stream := rest } u he rfl hi
    obtain ⟨-, hu, -⟩ := commandFrame i _ _ hi
    obtain ⟨-, hv', -⟩ := commandFrame i _ _ hv
    exact ⟨v, new, (step_of_command (hst ▸ hs) hw).trans hv, hengine, hv'.trans hu.symm, hnew, hnew'⟩
  · obtain ⟨hhost, -⟩ | ⟨hhost, -⟩ | ⟨-, e, c, hengine, -⟩ := exec_next_cases hi
    · simp at hhost
    · simp at hhost
    · rw [exec_decodeMicro_of_engine hengine] at hi
      cases hi
      have hv := exec_decodeMicro_of_engine (s := { s' with stream := rest }) (he.symm.trans hengine) m
      exact ⟨_, [], (step_of_micro (hst ▸ hs)).trans hv, rfl, rfl, rfl, rfl⟩

/-- Settles O37: the state after the fault agrees in engine and stream with the one without the faulting command. -/
theorem afterAFaultTheEngineContinues : Obligations.AfterAFaultTheEngineContinues := by
  intro s t u w ch rest r rs hs h hr hstatus hu
  obtain ⟨-, rfl⟩ := faultingCommandChangesNothing s t w ch rest r rs hs h hr hstatus
  exact step_of_agree (s := { s with stream := rest }) rfl rfl hu

end Sys2Proof.Machine
end

section
/-! PROOFS. Under the launch premises no step stops: what the host presents is answered, and a step takes the oldest presented
item and presents nothing new (70_reset_and_hazards.md R128, R137; 41_construct_reset.md R83). -/

namespace Sys2Proof.Machine

variable {s t : State}

/-- With no engine `CONSTRUCT` answers, unless the object it is to bind is no Key (41_construct_reset.md R77, 10_state.md
R31). -/
theorem exec_construct_answers {mp kp ip : Bool} (mode : Mode) (he : s.engine = none)
    (hk : kp = true → s.channels.key.WellFormed) : ∃ t, exec (.construct mode mp kp ip) s = .next t := by
  by_cases hnull : kp = false ∨ mp = false ∨ ip = false
  · exact ⟨_, exec_construct_of_null he hnull⟩
  obtain ⟨rfl, rfl, rfl⟩ : kp = true ∧ mp = true ∧ ip = true := by simpa using hnull
  by_cases hsize : s.channels.iv.size = s.channels.key.size
  · obtain ⟨e, hexec⟩ := exec_construct_of_wellFormed mode he (hk rfl) hsize
    exact ⟨_, hexec⟩
  · exact ⟨_, exec_construct_of_mismatch he hsize⟩

/-- Every host command answers, with an engine and without, unless it is a `CONSTRUCT` that presents an object that is no Key
(60_exceptions.md R113, 10_state.md R31). -/
theorem exec_answers_of_fromHost {i : Instr} (hhost : i.fromHost = true)
    (hk : ∀ mode mp ip, i = .construct mode mp true ip → s.channels.key.WellFormed) : ∃ t, exec i s = .next t := by
  cases he : s.engine with
  | some e => exact ⟨_, exec_of_engine he i⟩
  | none =>
    obtain ⟨mode, mp, kp, ip, rfl⟩ | hexec := exec_without_engine he i
    · exact exec_construct_answers mode he fun hkp => hk mode mp ip (by rw [hkp])
    · exact ⟨_, hexec.trans (if_pos hhost)⟩

/-- A step takes the oldest presented item, if there is one, and presents nothing new (70_reset_and_hazards.md R137). -/
theorem step_stream (h : step s = .next t) : t.stream = s.stream.tail := by
  obtain ⟨hs, rfl⟩ | ⟨rest, hs, rfl⟩ | ⟨w, ch, rest, r, hs, -, rfl⟩ | ⟨w, ch, rest, i, hs, -, hi⟩ | ⟨u, rest, hs, hi⟩ :=
    step_next_cases h
  · rw [hs, List.tail_nil]
  · rw [hs, List.tail_cons]
  · rw [hs, List.tail_cons, State.raise_stream]
  all_goals
    obtain ⟨-, hstream, -⟩ := commandFrame _ _ _ hi
    rw [hs, List.tail_cons, hstream]

/-- A step keeps the launch premises: what is presented after it was presented before (70_reset_and_hazards.md R128). -/
theorem State.Launch.of_step (hs : s.Launch) (h : step s = .next t) : t.Launch := by
  intro i hi
  rw [step_stream h] at hi
  exact hs i (List.mem_of_mem_tail hi)

/-- Under the launch premises a step answers: a presented command is the host's and shows a Key where it presents one, and no
micro-operation is presented (70_reset_and_hazards.md R128, R137). -/
theorem State.Launch.step_answers (hs : s.Launch) : ∃ t, step s = .next t := by
  match hstream : s.stream with
  | [] => exact ⟨s, step_of_stream_nil hstream⟩
  | item :: rest =>
    obtain ⟨hhost, hkey⟩ := hs item (hstream ▸ List.mem_cons_self)
    cases item with
    | powerOn => exact ⟨_, step_of_powerOn hstream⟩
    | command w ch =>
      cases hw : decodeCommand w with
      | illegal r => exact ⟨_, step_of_illegal hstream hw⟩
      | command i =>
        rw [step_of_command hstream hw]
        refine exec_answers_of_fromHost (fromHost_of_decodeCommand hw) fun mode mp ip hi => ?_
        exact hkey mode mp ip (hi ▸ hw)
    | micro u => cases hhost

/-- Settles O42: a step under the launch premises answers, and the state it answers meets them again. -/
theorem launchedMachineNeverStops : Obligations.LaunchedMachineNeverStops := by
  intro s hs
  obtain ⟨t, ht⟩ := hs.step_answers
  exact ⟨t, ht, hs.of_step ht⟩

end Sys2Proof.Machine
end
